-- ==== Sys2Proof/Word.lean ====
section
/-! DEFINITION. The word types of the YAC8E core (spec 00_scope.md R3, R7, R10): 8-bit data, 16-bit words,
4-bit register names. Every value is unsigned. -/

namespace Sys2Proof

/-- A data byte: a general register, a memory cell or a timer (R3, R7 V_WIDTH and TIMER_WIDTH). -/
abbrev Byte := BitVec 8

/-- A 16-bit word: I, PC, a return address or an instruction (R7 I_WIDTH, PC_WIDTH, RET_WIDTH, INSTR_WIDTH). -/
abbrev Word := BitVec 16

/-- The name of a general register, V0 to VF (R20): the value of a 4-bit field x or y. -/
abbrev Reg := Fin 16

/-- VF, register 15, which some instructions also write as the flag (R21). -/
abbrev regF : Reg := 15

end Sys2Proof
end

