-- ==== Sys2Proof/Config.lean ====
section
/-! DEFINITION. What the host decides and the spec leaves free: the inputs of one scheduler iteration and the random
byte of Cxnn. Both free values are opaque: nothing in Lean can see one (log entries 3 and 4). The core's fixed numbers
and parameters (R7, R8) are in Machine/Params.lean. -/

namespace Sys2Proof

/-- The key flags KEYS[0] to KEYS[15] (R39): true means pressed. -/
abbrev Keys := Vector Bool 16

/-- What the host presents at the input ports during one scheduler iteration (R46, R47, R49).
`delta_in`, a non-negative exact rational number of seconds, is `deltaNum / deltaDen`; every such number has this
form, and a denominator of 0 reads as 0 seconds (DESIGN CHOICE, log entry 5, safe). -/
structure HostInput where
  deltaNum  : Nat
  deltaDen  : Nat
  keys      : Keys
  quit      : Bool
  presentOk : Bool
deriving DecidableEq, Repr, Inhabited

/-- FREE VALUE. What the host presents in the n-th iteration for which State lines up no input: any keys, any delta, any
quit signal, any result of `present` (93_implementation_defined.md OB4, OB5, OB6; log entry 3). -/
opaque Config.hostInput : Nat → HostInput

/-- FREE VALUE. The byte `rand_in` supplies to the n-th draw for which State lines up no byte: any value from 0 to 255
(R48, OB3; log entry 4). -/
opaque Config.randomByte : Nat → Byte

end Sys2Proof
end

