-- ==== Sys2Proof/Machine/Params.lean ====
section
/-! DEFINITION. The core's fixed values (R7) and its named parameters (R8): the parameters are plain data that a state carries
(`State.params`, log entry 28), with the defaults the spec fixes for the hardware in `Params.standard` (log entry 9). They stand
here, and not in Config.lean, so that a test that shows a number wrong can mend it. -/

namespace Sys2Proof.Machine

/-- MEM_SIZE: bytes in the memory array (R7). -/
abbrev memSize : Nat := 4096

/-- FONT_BASE: first address of the font table (R7). -/
abbrev fontBase : Nat := 0x000

/-- FONT_SIZE: bytes in the font table, 16 glyphs of 5 bytes (R7). -/
abbrev fontSize : Nat := 80

/-- GLYPH_BYTES: bytes per glyph (R7). -/
abbrev glyphBytes : Nat := 5

/-- PROG_BASE: where the ROM image is placed and execution starts (R7, R333). -/
abbrev progBase : Nat := 0x200

/-- TIMER_HZ: timer ticks in one second; TICK is 1 / TIMER_HZ seconds (R7). -/
abbrev timerHz : Nat := 60

/-- DELTA_CAP: the cap on one iteration's time delta, in whole seconds (R7). -/
abbrev deltaCap : Nat := 3

/-- The bytes of a font table, glyph 0 first and in each glyph the top row first (R66). -/
abbrev FontTable := Vector Byte fontSize

/-- The parameters of the core (R8, 93_implementation_defined.md OB1, OB8, OB9). -/
structure Params where
  /-- STACK_LIMIT: the depth at which a push overflows, enforced (R30, R31). -/
  stackLimit : Nat
  /-- FONT_TABLE: the font that construction places at FONT_BASE (R66, R331). -/
  fontTable : FontTable
  /-- INSTR_HZ: the host's instruction rate, informative only; no rule reads it (R302; log entry 17). -/
  instrHz : Nat
deriving DecidableEq, Repr

/-- The default of FONT_TABLE: 16 glyphs of 5 bytes (R66). UNVERIFIED: the spec takes the bytes from general
knowledge (D5; log entry 9, unsafe for claims about drawn glyph pixels). -/
def standardFont : List Byte :=
  [0xF0, 0x90, 0x90, 0x90, 0xF0,  0x20, 0x60, 0x20, 0x20, 0x70] ++   -- 0 1
  [0xF0, 0x10, 0xF0, 0x80, 0xF0,  0xF0, 0x10, 0xF0, 0x10, 0xF0] ++   -- 2 3
  [0x90, 0x90, 0xF0, 0x10, 0x10,  0xF0, 0x80, 0xF0, 0x10, 0xF0] ++   -- 4 5
  [0xF0, 0x80, 0xF0, 0x90, 0xF0,  0xF0, 0x10, 0x20, 0x40, 0x40] ++   -- 6 7
  [0xF0, 0x90, 0xF0, 0x90, 0xF0,  0xF0, 0x90, 0xF0, 0x10, 0xF0] ++   -- 8 9
  [0xF0, 0x90, 0xF0, 0x90, 0x90,  0xE0, 0x90, 0xE0, 0x90, 0xE0] ++   -- A B
  [0xF0, 0x80, 0x80, 0x80, 0xF0,  0xE0, 0x90, 0x90, 0x90, 0xE0] ++   -- C D
  [0xF0, 0x80, 0xF0, 0x80, 0xF0,  0xF0, 0x80, 0xF0, 0x80, 0x80]      -- E F

/-- The parameters at the defaults the spec fixes for the hardware: 16, the table of R66, and 500 (R8; D5, D6, D37). -/
def Params.standard : Params where
  stackLimit := 16
  fontTable := ⟨standardFont.toArray, rfl⟩
  instrHz := 500

/-- What an address holds at construction before the ROM load, and so what a memory cell nothing has written reads as:
the font table at FONT_BASE, 0 everywhere else (R66, R67, R331; log entry 10). -/
def resetByte (font : FontTable) (a : Nat) : Byte :=
  if h : fontBase ≤ a ∧ a - fontBase < fontSize then font[a - fontBase] else 0

end Sys2Proof.Machine
end

