-- ==== Sys2Proof/Machine/State.lean ====
section
/-! DEFINITION. The state of the YAC8E core (spec 10_state.md, the record of R44), its ports (R45 to R51), the fault
record (R282), the reasons a step can stop, and the state after reset (R334). -/

namespace Sys2Proof.Machine

/-- The frame buffer FB, 32 rows of 64 one-bit pixels (R37): bit c of row r is FB[r][c], the order of `frame_out` (R49). -/
abbrev FrameBuffer := Vector (BitVec 64) 32

/-- Memory (R60): the cells whose contents differ from `resetByte`, by rising address. -/
abbrev Memory := List Host.Cell

/-- The fault kinds (R281). -/
inductive FaultKind where
  | outOfBoundsAccess
  | integerOverflow
  | stackUnderflow
  | stackOverflow
  | unrecognizedOpcode
  | hostAdapterError
deriving DecidableEq, Repr

/-- The host adapters, whose name HostAdapterError carries (R282, R337). -/
inductive Adapter where
  | display
  | input
  | audio
deriving DecidableEq, Repr

/-- The operand values a fault record carries (R282). -/
inductive FaultInfo where
  /-- `{addr, len}`: a memory range (R62, R63). -/
  | range (addr len : Nat)
  /-- `{key}`: a key index (R249). -/
  | key (v : Byte)
  /-- `{I, addend}`: the operands of an overflowing Fx1E (R191). -/
  | overflow (i : Word) (addend : Byte)
  /-- `{depth}`: the stack depth (R31, R32). -/
  | depth (sp : Nat)
  /-- `{word}`: an ILLEGAL word (R96). -/
  | word (w : Word)
  /-- The name of the adapter that failed (R299, R306). -/
  | adapter (name : Adapter)
deriving DecidableEq, Repr

/-- A fault as an instruction's pseudocode raises it: `raise Fault(kind, info)` (R11). -/
structure Raise where
  kind : FaultKind
  info : FaultInfo
deriving DecidableEq, Repr

/-- A fault record (R282): `pc` and `word` are none where the fault is outside a step, `word` also where the fetch itself
faulted. -/
structure FaultRecord where
  kind : FaultKind
  pc   : Option Word
  word : Option Word
  info : FaultInfo
deriving DecidableEq, Repr

/-- The calls the audio adapter gets (R291). -/
inductive BeepCall where
  /-- `start_beep()`: `beep_out` rises. -/
  | start
  /-- `stop_beep()`: `beep_out` falls. -/
  | stop
deriving DecidableEq, Repr

/-- STATUS, the run state of the core (R42). -/
inductive Status where
  | running
  | halted (f : FaultRecord)
  | quit
deriving DecidableEq, Repr

/-- The whole state: the record of R44, the port `frame_out` (R49), the parameters of R8, which no step changes (log entry 28),
and four fields of the model's own that hold what the host has lined up at the input ports (log entries 3, 4 and 8). SP is the length of `stack` (R30); `beep_out` and
`status_out` are computed (R50, R51). -/
structure State where
  /-- The parameters this core was built with (R8). -/
  params : Params
  /-- V[0..15] (R20). -/
  v : Vector Byte 16
  /-- I (R24). -/
  i : Word
  /-- PC (R25). -/
  pc : Word
  /-- STACK, bottom first and top last (R30). -/
  stack : List Word
  /-- DT (R35). -/
  dt : Byte
  /-- ST (R35). -/
  st : Byte
  /-- FB (R37). -/
  fb : FrameBuffer
  /-- KEYS (R39). -/
  keys : Keys
  /-- MEM (R60). -/
  mem : Memory
  /-- ACC, exact seconds (R41). -/
  acc : Rat
  /-- STATUS (R42). -/
  status : Status
  /-- Port `frame_out` (R49): the frame the latest iteration drove at its stage (f), none if it drove none (log entry 11). -/
  frameOut : Option FrameBuffer
  /-- The model's own: the inputs the host has lined up, one for each coming iteration (log entry 3). -/
  hostInputs : List HostInput
  /-- The model's own: iterations begun, the index of the free value `Config.hostInput` (log entry 3). -/
  iterations : Nat
  /-- The model's own: the bytes lined up at `rand_in`, one for each coming Cxnn (log entry 4). -/
  randIn : List Byte
  /-- The model's own: draws taken, the index of the free value `Config.randomByte` (log entry 4). -/
  draws : Nat
deriving DecidableEq, Repr

/-- Why `step` answers no next state. A fault of the core itself (R281) is no such reason: it is a next state whose STATUS
is Halted with the fault record (R283; log entry 2). -/
inductive Fault where
  /-- Raised by `step` alone, asked of a core whose STATUS is Halted(f): "Only Running has a next step" (R42). Safe: nothing
  is claimed of a step the spec does not define. -/
  | halted (f : FaultRecord)
  /-- Raised by `step` alone, asked of a core whose STATUS is Quit (R42). Safe, as `halted`. -/
  | quit
deriving DecidableEq, Repr

/-- Why an instruction has no meaning in the model. -/
inductive Refusal where
  /-- Raised by `exec` for an instruction that has no meaning yet; no arm of `exec` raises it. Safe: the run stops. -/
  | notModelled (mnemonic : String)
deriving DecidableEq, Repr

/-- The state right after the construction of a core with these parameters and an empty ROM (R330, R334, R44): PC at PROG_BASE
(R333), memory the font and zeros (R331). The fields of the model's own and `frameOut` are DESIGN CHOICE (log entries 8 and
11). -/
def State.initial (p : Params) : State where
  params := p
  v := Vector.replicate 16 0
  i := 0
  pc := BitVec.ofNat 16 progBase
  stack := []
  dt := 0
  st := 0
  fb := Vector.replicate 32 0
  keys := Vector.replicate 16 false
  mem := []
  acc := 0
  status := .running
  frameOut := none
  hostInputs := []
  iterations := 0
  randIn := []
  draws := 0

/-- The state right after construction at the default parameters (R8). -/
def State.reset : State := State.initial Params.standard

end Sys2Proof.Machine
end

