-- ==== Sys2Proof/Machine/Ops.lean ====
section
/-! DEFINITION. The named operations over the state: memory (spec 20_memory.md), registers (10_state.md), the call stack
(R31, R32), the PC updates (R101), the random draw (R48), and taking a fault (R283). -/

namespace Sys2Proof.Machine

/-! ### Memory -/

/-- The canonical form of a memory: addresses strictly rising and inside the array, no entry equal to what an unlisted
address reads as. -/
abbrev Memory.wf (font : FontTable) (m : Memory) : Prop :=
  m.Pairwise (fun c d => c.1 < d.1) ∧ ∀ c ∈ m, c.1 < memSize ∧ c.2 ≠ resetByte font c.1

/-- The byte at an address: the listed one, or the construction value (R74). -/
def Memory.get (font : FontTable) : Memory → Nat → Byte
  | [], a => resetByte font a
  | (c, b) :: rest, a => if c = a then b else Memory.get font rest a

/-- A new cell put in its place by address. -/
def Memory.insert (a : Nat) (b : Byte) : Memory → Memory
  | [] => [(a, b)]
  | (c, d) :: rest => if a < c then (a, b) :: (c, d) :: rest else (c, d) :: Memory.insert a b rest

/-- The memory without the cell of an address. -/
def Memory.unlist (a : Nat) : Memory → Memory
  | [] => []
  | (c, d) :: rest => if c = a then Memory.unlist a rest else (c, d) :: Memory.unlist a rest

/-- The memory with one byte written; a byte that becomes what an unlisted address reads as is no longer listed. -/
def Memory.set (font : FontTable) (m : Memory) (a : Nat) (b : Byte) : Memory :=
  if b = resetByte font a then Memory.unlist a m else Memory.insert a b (Memory.unlist a m)

/-- Bytes written from an address upwards, byte k to address a + k (R63, R70). -/
def Memory.setBytes (font : FontTable) (m : Memory) (a : Nat) : List Byte → Memory
  | [] => m
  | b :: rest => Memory.setBytes font (m.set font a b) (a + 1) rest

/-- The n bytes from an address upwards, lowest address first (R62). -/
def Memory.getBytes (font : FontTable) (m : Memory) (a n : Nat) : List Byte :=
  (List.range n).map (fun k => m.get font (a + k))

/-- InBounds(a, n): an access of n bytes at a lies in the array, on exact integers, n = 0 included (R61). -/
def inBounds (a n : Nat) : Bool := decide (a + n ≤ memSize)

/-- The fault of a memory range outside the array (R62, R63). -/
def outOfBounds (a n : Nat) : Raise := ⟨.outOfBoundsAccess, .range a n⟩

/-- One byte of memory. -/
def State.readByte (s : State) (a : Nat) : Byte := s.mem.get s.params.fontTable a

/-- MemRead(a, n) (R62). -/
def State.memRead (s : State) (a n : Nat) : Except Raise (List Byte) :=
  if inBounds a n then .ok (s.mem.getBytes s.params.fontTable a n) else .error (outOfBounds a n)

/-- MemWrite(a, n, bs) with n the length of bs (R63): the whole range is checked before any byte is written. -/
def State.memWrite (s : State) (a : Nat) (bs : List Byte) : Except Raise State :=
  if inBounds a bs.length then .ok { s with mem := s.mem.setBytes s.params.fontTable a bs }
  else .error (outOfBounds a bs.length)

/-- The memory of a state is in canonical form over that state's font. -/
abbrev State.memWf (s : State) : Prop := s.mem.wf s.params.fontTable

/-! ### Registers -/

/-- V[x] (R11). -/
def State.getV (s : State) (x : Reg) : Byte := s.v[x]

/-- V[x] <- b (R11). -/
def State.setV (s : State) (x : Reg) (b : Byte) : State := { s with v := s.v.set x b }

/-- I <- w (R11). -/
def State.setI (s : State) (w : Word) : State := { s with i := w }

/-- DT <- b (R11). -/
def State.setDt (s : State) (b : Byte) : State := { s with dt := b }

/-- ST <- b (R11). -/
def State.setSt (s : State) (b : Byte) : State := { s with st := b }

/-- FB <- f, by the blit engine alone (R37). -/
def State.setFb (s : State) (f : FrameBuffer) : State := { s with fb := f }

/-- `beep_out`: true exactly when ST is not 0 (R50). -/
def State.beepOut (s : State) : Bool := decide (s.st ≠ 0)

/-- `status_out`: STATUS (R51). -/
def State.statusOut (s : State) : Status := s.status

/-! ### The PC updates of R101 (hold is no update) -/

/-- `next`: pc <- PC + 2. -/
def State.next (s : State) : State := { s with pc := s.pc + 2 }

/-- `skip(c)`: pc <- PC + 4 if c holds, else PC + 2. -/
def State.skip (s : State) (c : Bool) : State := { s with pc := if c then s.pc + 4 else s.pc + 2 }

/-- `jump(t)`: pc <- t. -/
def State.jump (s : State) (t : Word) : State := { s with pc := t }

/-! ### The call stack -/

/-- SP, the depth of the call stack (R30). -/
def State.sp (s : State) : Nat := s.stack.length

/-- `push(w)` (R31): StackOverflow at depth STACK_LIMIT. A depth above the limit, which no run reaches, overflows too
(log entry 18). -/
def State.push (s : State) (w : Word) : Except Raise State :=
  if s.sp < s.params.stackLimit then .ok { s with stack := s.stack ++ [w] }
  else .error ⟨.stackOverflow, .depth s.sp⟩

/-- `pop()` (R32): the top entry and the state without it; StackUnderflow when the stack is empty. -/
def State.pop (s : State) : Except Raise (Word × State) :=
  match s.stack.getLast? with
  | none => .error ⟨.stackUnderflow, .depth 0⟩
  | some top => .ok (top, { s with stack := s.stack.dropLast })

/-! ### The random draw -/

/-- `rand()` (R48): one fresh draw, the next byte lined up at `rand_in` or else a free value (log entry 4). -/
def State.draw (s : State) : Byte × State :=
  match s.randIn with
  | b :: rest => (b, { s with randIn := rest, draws := s.draws + 1 })
  | [] => (Config.randomByte s.draws, { s with draws := s.draws + 1 })

/-! ### Taking a fault -/

/-- STATUS <- Halted(f), everything else as it was (R283, R286): the core has no trap entry, no saved register and no
vector, and no return from a fault (R287). -/
def State.halt (s : State) (f : FaultRecord) : State := { s with status := .halted f }

/-- The halted state of a fault raised by the instruction `word` at PC (R282, R283). -/
def State.haltAt (s : State) (word : Word) (r : Raise) : State :=
  s.halt { kind := r.kind, pc := some s.pc, word := some word, info := r.info }

/-- The end of an instruction: all of its writes, or, where its pseudocode raised a fault, none of them and the halted state
(R13, R283). A fault is a next state of the machine (log entry 2). -/
def State.commit (s : State) (word : Word) : Except Raise State → Host.Outcome State Fault Refusal
  | .ok t => .next t
  | .error r => .next (s.haltAt word r)

/-- The code of a fault kind at the `status_out` port (R281). -/
def faultCode : FaultKind → Nat
  | .outOfBoundsAccess => 1
  | .integerOverflow => 2
  | .stackUnderflow => 3
  | .stackOverflow => 4
  | .unrecognizedOpcode => 5
  | .hostAdapterError => 6

end Sys2Proof.Machine
end

