-- ==== Sys2Proof/Machine/Boot.lean ====
section
/-! DEFINITION. Construction, the core's only reset (spec 70_reset_and_hazards.md R330 to R337). -/

namespace Sys2Proof.Machine

/-- The fault record of a fault outside a step (R282). -/
def bootFault (r : Raise) : FaultRecord := { kind := r.kind, pc := none, word := none, info := r.info }

/-- `load_rom(rom)` (R332): one bulk write at PROG_BASE. -/
def State.loadRom (s : State) (rom : List Byte) : Except Raise State := s.memWrite progBase rom

/-- Construction (R330) of a core with parameters `p` (R8): adapters, memory with the font, ROM, reset values. `failed` names
an adapter that fails to construct (R306, R337; log entry 14); a failure ends the construction with its fault and no state is
defined. -/
def State.construct (p : Params) (failed : Option Adapter) (rom : List Byte) : Except FaultRecord State :=
  match failed with
  | some a => .error (bootFault ⟨.hostAdapterError, .adapter a⟩)
  | none => ((State.initial p).loadRom rom).mapError bootFault

end Sys2Proof.Machine
end

