-- ==== Sys2Proof/Machine/Flags.lean ====
section
/-! DEFINITION. Every flag value of the core (R162): what 8xy4 to 8xyE and Dxyn write into VF. There is no other flag
(R23). -/

namespace Sys2Proof.Machine

/-- A flag as a register value, 1 or 0. -/
def flagByte (c : Bool) : Byte := if c then 1 else 0

/-- The carry of 8xy4: the exact sum exceeds 255 (R156). -/
def carryFlag (vx vy : Byte) : Byte := flagByte (decide (vx.toNat + vy.toNat > 255))

/-- The flag of 8xy5, and with its operands exchanged of 8xy7: a > b, strictly (R157, R159). -/
def greaterFlag (a b : Byte) : Byte := flagByte (decide (a.toNat > b.toNat))

/-- The bit 8xy6 shifts out (R158). -/
def lowBitFlag (vx : Byte) : Byte := vx &&& 1

/-- The bit 8xyE shifts out (R160). -/
def highBitFlag (vx : Byte) : Byte := vx >>> 7

/-- The collision bit of Dxyn (R227). -/
def collisionFlag (col : Bool) : Byte := flagByte col

end Sys2Proof.Machine
end

