-- ==== Sys2Proof/Machine/Operands.lean ====
section
/-! DEFINITION. How operands and addresses are formed (R92, R196), and the values computed from them that are no flags: sums
and differences reduced to a width (R10, R162), the BCD digits (R193), the register block (R194, R195), the key lookup
(R249) and the choice of a pressed key (R253). -/

namespace Sys2Proof.Machine

/-- zext_16(nnn) (R92). -/
def zext16 (nnn : BitVec 12) : Word := nnn.setWidth 16

/-- An exact integer reduced mod 256 (R10). -/
def toByte (n : Nat) : Byte := BitVec.ofNat 8 n

/-- (a - b) mod 256 on exact integers (R10, R157, R159). -/
def subMod (a b : Byte) : Byte := BitVec.ofInt 8 ((a.toNat : Int) - (b.toNat : Int))

/-- V0 + zext_16(nnn), the exact sum of Bnnn, which fits 16 bits (R123). -/
def offsetTarget (v0 : Byte) (nnn : BitVec 12) : Word := BitVec.ofNat 16 (v0.toNat + nnn.toNat)

/-- I as a memory address; byte k of an access lies at this address + k (R70, R196). -/
def State.dataAddress (s : State) : Nat := s.i.toNat

/-- FONT_BASE + (vx & 0xF) * GLYPH_BYTES (R192). -/
def glyphAddress (vx : Byte) : Word := BitVec.ofNat 16 (fontBase + (vx &&& 0xF).toNat * glyphBytes)

/-- I + vx, or IntegerOverflow when the exact sum does not fit 16 bits (R191). -/
def addToI (i : Word) (vx : Byte) : Except Raise Word :=
  let sum := i.toNat + vx.toNat
  if sum > 0xFFFF then .error ⟨.integerOverflow, .overflow i vx⟩ else .ok (BitVec.ofNat 16 sum)

/-- The hundreds, tens and ones digits of vx, most significant first (R193). -/
def bcdDigits (vx : Byte) : List Byte :=
  [toByte (vx.toNat / 100), toByte (vx.toNat / 10 % 10), toByte (vx.toNat % 10)]

/-- [V[0], ..., V[x]] (R194). -/
def State.regBlock (s : State) (x : Reg) : List Byte := s.v.toList.take (x.val + 1)

/-- V[k] <- bs[k] for each byte of bs, from V[k] upwards (R195). -/
def State.loadRegs (s : State) : Nat → List Byte → State
  | _, [] => s
  | k, b :: rest => State.loadRegs (if h : k < 16 then s.setV ⟨k, h⟩ b else s) (k + 1) rest

/-- I <- I + x + 1, the increment of Fx55 and Fx65 (R194, R195). -/
def State.advanceI (s : State) (x : Reg) : State := s.setI (s.i + BitVec.ofNat 16 (x.val + 1))

/-- key(v) (R249): OutOfBoundsAccess above 15; the high nibble is not masked off. -/
def State.keyPressed (s : State) (v : Byte) : Except Raise Bool :=
  if h : v.toNat < 16 then .ok s.keys[v.toNat] else .error ⟨.outOfBoundsAccess, .key v⟩

/-- The least-numbered pressed key, if any key is pressed (R253). -/
def leastPressed (keys : Keys) : Option Reg := (List.finRange 16).find? (fun k => keys[k])

end Sys2Proof.Machine
end

