-- ==== Sys2Proof/Machine/Alu.lean ====
section
/-! DEFINITION. Register loads and arithmetic (spec 41_alu.md R150 to R161). Operands are captured from the state before any
write; writes happen in the order the rule lists them (R12). -/

namespace Sys2Proof.Machine

/-- 6xnn LD Vx, nn (R150). -/
def execLdImm (x : Reg) (nn : Byte) (s : State) : Host.Outcome State Fault Refusal :=
  .next (s.setV x nn).next

/-- 7xnn ADD Vx, nn (R151): no flag. -/
def execAddImm (x : Reg) (nn : Byte) (s : State) : Host.Outcome State Fault Refusal :=
  .next (s.setV x (toByte ((s.getV x).toNat + nn.toNat))).next

/-- 8xy0 LD Vx, Vy (R152). -/
def execLdReg (x y : Reg) (s : State) : Host.Outcome State Fault Refusal :=
  .next (s.setV x (s.getV y)).next

/-- 8xy1 OR Vx, Vy (R153). -/
def execOrReg (x y : Reg) (s : State) : Host.Outcome State Fault Refusal :=
  .next (s.setV x (s.getV x ||| s.getV y)).next

/-- 8xy2 AND Vx, Vy (R154). -/
def execAndReg (x y : Reg) (s : State) : Host.Outcome State Fault Refusal :=
  .next (s.setV x (s.getV x &&& s.getV y)).next

/-- 8xy3 XOR Vx, Vy (R155). -/
def execXorReg (x y : Reg) (s : State) : Host.Outcome State Fault Refusal :=
  .next (s.setV x (s.getV x ^^^ s.getV y)).next

/-- 8xy4 ADD Vx, Vy (R156): the carry is written last. -/
def execAddReg (x y : Reg) (s : State) : Host.Outcome State Fault Refusal :=
  let vx := s.getV x
  let vy := s.getV y
  .next ((s.setV x (toByte (vx.toNat + vy.toNat))).setV regF (carryFlag vx vy)).next

/-- 8xy5 SUB Vx, Vy (R157): the flag is written last. -/
def execSub (x y : Reg) (s : State) : Host.Outcome State Fault Refusal :=
  let vx := s.getV x
  let vy := s.getV y
  .next ((s.setV x (subMod vx vy)).setV regF (greaterFlag vx vy)).next

/-- 8xy6 SHR Vx (R158): y is ignored; VF is written first and V[x] is then reread (R12). -/
def execShr (x _y : Reg) (s : State) : Host.Outcome State Fault Refusal :=
  let s' := s.setV regF (lowBitFlag (s.getV x))
  .next (s'.setV x (s'.getV x >>> 1)).next

/-- 8xy7 SUBN Vx, Vy (R159): the flag is written last. -/
def execSubn (x y : Reg) (s : State) : Host.Outcome State Fault Refusal :=
  let vx := s.getV x
  let vy := s.getV y
  .next ((s.setV x (subMod vy vx)).setV regF (greaterFlag vy vx)).next

/-- 8xyE SHL Vx (R160): y is ignored; VF is written first and V[x] is then reread (R12). -/
def execShl (x _y : Reg) (s : State) : Host.Outcome State Fault Refusal :=
  let s' := s.setV regF (highBitFlag (s.getV x))
  .next (s'.setV x (s'.getV x <<< 1)).next

/-- Cxnn RND Vx, nn (R161): one fresh draw under the mask. -/
def execRnd (x : Reg) (nn : Byte) (s : State) : Host.Outcome State Fault Refusal :=
  let drawn := s.draw
  .next (drawn.2.setV x (drawn.1 &&& nn)).next

end Sys2Proof.Machine
end

