-- ==== Sys2Proof/Syntax.lean ====
section
/-! DEFINITION. The instructions: one constructor for each of the 34 rows of spec/opcode_table.json (R2, R93). Operand
fields are those of R91 and R92: registers by name, `nn` a byte, `nnn` a 12-bit address, `n` a count. -/

namespace Sys2Proof

/-- An instruction of the YAC8E core. The y operand of SHR and SHL is decoded and ignored (R158, R160). -/
inductive Instr where
  /-- 00E0 CLS (R226). -/
  | cls
  /-- 00EE RET (R120). -/
  | ret
  /-- 1nnn JP nnn (R121). -/
  | jp (nnn : BitVec 12)
  /-- 2nnn CALL nnn (R122). -/
  | call (nnn : BitVec 12)
  /-- 3xnn SE Vx, nn (R124). -/
  | seImm (x : Reg) (nn : Byte)
  /-- 4xnn SNE Vx, nn (R125). -/
  | sneImm (x : Reg) (nn : Byte)
  /-- 5xy0 SE Vx, Vy (R126). -/
  | seReg (x y : Reg)
  /-- 6xnn LD Vx, nn (R150). -/
  | ldImm (x : Reg) (nn : Byte)
  /-- 7xnn ADD Vx, nn (R151). -/
  | addImm (x : Reg) (nn : Byte)
  /-- 8xy0 LD Vx, Vy (R152). -/
  | ldReg (x y : Reg)
  /-- 8xy1 OR Vx, Vy (R153). -/
  | orReg (x y : Reg)
  /-- 8xy2 AND Vx, Vy (R154). -/
  | andReg (x y : Reg)
  /-- 8xy3 XOR Vx, Vy (R155). -/
  | xorReg (x y : Reg)
  /-- 8xy4 ADD Vx, Vy (R156). -/
  | addReg (x y : Reg)
  /-- 8xy5 SUB Vx, Vy (R157). -/
  | sub (x y : Reg)
  /-- 8xy6 SHR Vx, Vy (R158). -/
  | shr (x y : Reg)
  /-- 8xy7 SUBN Vx, Vy (R159). -/
  | subn (x y : Reg)
  /-- 8xyE SHL Vx, Vy (R160). -/
  | shl (x y : Reg)
  /-- 9xy0 SNE Vx, Vy (R127). -/
  | sneReg (x y : Reg)
  /-- Annn LD I, nnn (R190). -/
  | ldI (nnn : BitVec 12)
  /-- Bnnn JP V0, nnn (R123). -/
  | jpV0 (nnn : BitVec 12)
  /-- Cxnn RND Vx, nn (R161). -/
  | rnd (x : Reg) (nn : Byte)
  /-- Dxyn DRW Vx, Vy, n (R227). -/
  | drw (x y : Reg) (n : Nat)
  /-- Ex9E SKP Vx (R250). -/
  | skp (x : Reg)
  /-- ExA1 SKNP Vx (R251). -/
  | sknp (x : Reg)
  /-- Fx07 LD Vx, DT (R252). -/
  | ldVxDt (x : Reg)
  /-- Fx0A LD Vx, K (R253). -/
  | ldVxK (x : Reg)
  /-- Fx15 LD DT, Vx (R254). -/
  | ldDtVx (x : Reg)
  /-- Fx18 LD ST, Vx (R255). -/
  | ldStVx (x : Reg)
  /-- Fx1E ADD I, Vx (R191). -/
  | addI (x : Reg)
  /-- Fx29 LD F, Vx (R192). -/
  | ldF (x : Reg)
  /-- Fx33 LD B, Vx (R193). -/
  | ldB (x : Reg)
  /-- Fx55 LD [I], Vx (R194). -/
  | ldMemVx (x : Reg)
  /-- Fx65 LD Vx, [I] (R195). -/
  | ldVxMem (x : Reg)
deriving DecidableEq, Repr

end Sys2Proof
end

