-- ==== Sys2Proof/Decode.lean ====
section
/-! DEFINITION. Instruction words (spec 30_encoding.md): the fields of R91, the decoder of R94 on every word and on any
bytes, the opcode map of R93 as a table of rows, and the encoder. -/

namespace Sys2Proof

/-- Why a word or some bytes hold no instruction. -/
inductive DecodeError where
  /-- The word is ILLEGAL (R95); decoding it raises UnrecognizedOpcode (R96). -/
  | illegal (w : Word)
  /-- Fewer than two bytes: no instruction is shorter than one 16-bit word (R90). -/
  | truncated
deriving DecidableEq, Repr

/-- Field op, w[15:12] (R91). -/
def opField (w : Word) : BitVec 4 := w.extractLsb' 12 4

/-- Field x, w[11:8], a register name (R91). -/
def xField (w : Word) : Reg := (w.extractLsb' 8 4).toFin

/-- Field y, w[7:4], a register name (R91). -/
def yField (w : Word) : Reg := (w.extractLsb' 4 4).toFin

/-- Field n, w[3:0] (R91). -/
def nField (w : Word) : BitVec 4 := w.extractLsb' 0 4

/-- Field nn, w[7:0] (R91). -/
def nnField (w : Word) : Byte := w.extractLsb' 0 8

/-- Field nnn, w[11:0] (R91). -/
def nnnField (w : Word) : BitVec 12 := w.extractLsb' 0 12

/-- Family 0, selected on the whole word (R94). -/
def decodeFamily0 (w : Word) : Except DecodeError Instr :=
  if w = 0x00E0#16 then .ok .cls
  else if w = 0x00EE#16 then .ok .ret
  else .error (.illegal w)

/-- Family 8, selected on n (R94). -/
def decodeFamily8 (w : Word) : Except DecodeError Instr :=
  let x := xField w
  let y := yField w
  match nField w with
  | 0x0#4 => .ok (.ldReg x y)
  | 0x1#4 => .ok (.orReg x y)
  | 0x2#4 => .ok (.andReg x y)
  | 0x3#4 => .ok (.xorReg x y)
  | 0x4#4 => .ok (.addReg x y)
  | 0x5#4 => .ok (.sub x y)
  | 0x6#4 => .ok (.shr x y)
  | 0x7#4 => .ok (.subn x y)
  | 0xE#4 => .ok (.shl x y)
  | _ => .error (.illegal w)

/-- Family E, selected on nn (R94). -/
def decodeFamilyE (w : Word) : Except DecodeError Instr :=
  match nnField w with
  | 0x9E#8 => .ok (.skp (xField w))
  | 0xA1#8 => .ok (.sknp (xField w))
  | _ => .error (.illegal w)

/-- Family F, selected on nn (R94). -/
def decodeFamilyF (w : Word) : Except DecodeError Instr :=
  let x := xField w
  match nnField w with
  | 0x07#8 => .ok (.ldVxDt x)
  | 0x0A#8 => .ok (.ldVxK x)
  | 0x15#8 => .ok (.ldDtVx x)
  | 0x18#8 => .ok (.ldStVx x)
  | 0x1E#8 => .ok (.addI x)
  | 0x29#8 => .ok (.ldF x)
  | 0x33#8 => .ok (.ldB x)
  | 0x55#8 => .ok (.ldMemVx x)
  | 0x65#8 => .ok (.ldVxMem x)
  | _ => .error (.illegal w)

/-- The decoder, total on every 16-bit word (R94). -/
def decode (w : Word) : Except DecodeError Instr :=
  match opField w with
  | 0x0#4 => decodeFamily0 w
  | 0x1#4 => .ok (.jp (nnnField w))
  | 0x2#4 => .ok (.call (nnnField w))
  | 0x3#4 => .ok (.seImm (xField w) (nnField w))
  | 0x4#4 => .ok (.sneImm (xField w) (nnField w))
  | 0x5#4 => if nField w = 0x0#4 then .ok (.seReg (xField w) (yField w)) else .error (.illegal w)
  | 0x6#4 => .ok (.ldImm (xField w) (nnField w))
  | 0x7#4 => .ok (.addImm (xField w) (nnField w))
  | 0x8#4 => decodeFamily8 w
  | 0x9#4 => if nField w = 0x0#4 then .ok (.sneReg (xField w) (yField w)) else .error (.illegal w)
  | 0xA#4 => .ok (.ldI (nnnField w))
  | 0xB#4 => .ok (.jpV0 (nnnField w))
  | 0xC#4 => .ok (.rnd (xField w) (nnField w))
  | 0xD#4 => .ok (.drw (xField w) (yField w) (nField w).toNat)
  | 0xE#4 => decodeFamilyE w
  | 0xF#4 => decodeFamilyF w
  | _ => .error (.illegal w)

/-- The word of two bytes, the first in bits 15:8 (R69: fetch is big-endian). -/
def wordOfBytes (first second : Byte) : Word := first ++ second

/-- The byte of a word that lies at the lower address, bits 15:8 (R69). -/
def firstByte (w : Word) : Byte := w.extractLsb' 8 8

/-- The byte of a word that lies at the higher address, bits 7:0 (R69). -/
def secondByte (w : Word) : Byte := w.extractLsb' 0 8

/-- The decoder on any bytes: the instruction of the first two and the bytes after them (R69, R90). -/
def decodeBytes : List Byte → Except DecodeError (Instr × List Byte)
  | first :: second :: rest => (decode (wordOfBytes first second)).map (·, rest)
  | _ => .error .truncated

/-- The instruction the decoder reads from an instruction whose bits are `w`, numbered as spec/opcode_table.json numbers
them; bits at or above `nbits` are 0 (host interface). -/
def decodeTableWord (nbits w : Nat) : Option Instr :=
  let word : Word := BitVec.ofNat 16 (w % 2 ^ nbits)
  match decodeBytes [firstByte word, secondByte word] with
  | .ok (i, _) => some i
  | .error _ => none

/-- The 4-bit field that names a register (R91). -/
def regField (r : Reg) : BitVec 4 := BitVec.ofFin r

/-- The word of an instruction, from the encoding column of spec/opcode_table.json (R93). -/
def encode : Instr → Word
  | .cls => 0x00E0#16
  | .ret => 0x00EE#16
  | .jp nnn => 0x1#4 ++ nnn
  | .call nnn => 0x2#4 ++ nnn
  | .seImm x nn => 0x3#4 ++ regField x ++ nn
  | .sneImm x nn => 0x4#4 ++ regField x ++ nn
  | .seReg x y => 0x5#4 ++ regField x ++ regField y ++ 0x0#4
  | .ldImm x nn => 0x6#4 ++ regField x ++ nn
  | .addImm x nn => 0x7#4 ++ regField x ++ nn
  | .ldReg x y => 0x8#4 ++ regField x ++ regField y ++ 0x0#4
  | .orReg x y => 0x8#4 ++ regField x ++ regField y ++ 0x1#4
  | .andReg x y => 0x8#4 ++ regField x ++ regField y ++ 0x2#4
  | .xorReg x y => 0x8#4 ++ regField x ++ regField y ++ 0x3#4
  | .addReg x y => 0x8#4 ++ regField x ++ regField y ++ 0x4#4
  | .sub x y => 0x8#4 ++ regField x ++ regField y ++ 0x5#4
  | .shr x y => 0x8#4 ++ regField x ++ regField y ++ 0x6#4
  | .subn x y => 0x8#4 ++ regField x ++ regField y ++ 0x7#4
  | .shl x y => 0x8#4 ++ regField x ++ regField y ++ 0xE#4
  | .sneReg x y => 0x9#4 ++ regField x ++ regField y ++ 0x0#4
  | .ldI nnn => 0xA#4 ++ nnn
  | .jpV0 nnn => 0xB#4 ++ nnn
  | .rnd x nn => 0xC#4 ++ regField x ++ nn
  | .drw x y n => 0xD#4 ++ regField x ++ regField y ++ BitVec.ofNat 4 n
  | .skp x => 0xE#4 ++ regField x ++ 0x9E#8
  | .sknp x => 0xE#4 ++ regField x ++ 0xA1#8
  | .ldVxDt x => 0xF#4 ++ regField x ++ 0x07#8
  | .ldVxK x => 0xF#4 ++ regField x ++ 0x0A#8
  | .ldDtVx x => 0xF#4 ++ regField x ++ 0x15#8
  | .ldStVx x => 0xF#4 ++ regField x ++ 0x18#8
  | .addI x => 0xF#4 ++ regField x ++ 0x1E#8
  | .ldF x => 0xF#4 ++ regField x ++ 0x29#8
  | .ldB x => 0xF#4 ++ regField x ++ 0x33#8
  | .ldMemVx x => 0xF#4 ++ regField x ++ 0x55#8
  | .ldVxMem x => 0xF#4 ++ regField x ++ 0x65#8

/-- The mask of an instruction's row in the opcode map of R93. -/
def rowMask : Instr → Word
  | .cls | .ret => 0xFFFF#16
  | .jp _ | .call _ | .ldI _ | .jpV0 _ => 0xF000#16
  | .seImm _ _ | .sneImm _ _ | .ldImm _ _ | .addImm _ _ | .rnd _ _ | .drw _ _ _ => 0xF000#16
  | .seReg _ _ | .sneReg _ _ | .ldReg _ _ | .orReg _ _ | .andReg _ _ | .xorReg _ _ => 0xF00F#16
  | .addReg _ _ | .sub _ _ | .shr _ _ | .subn _ _ | .shl _ _ => 0xF00F#16
  | .skp _ | .sknp _ | .ldVxDt _ | .ldVxK _ | .ldDtVx _ | .ldStVx _ => 0xF0FF#16
  | .addI _ | .ldF _ | .ldB _ | .ldMemVx _ | .ldVxMem _ => 0xF0FF#16

/-- The match pattern of an instruction's row in the opcode map of R93. -/
def rowMatch : Instr → Word
  | .cls => 0x00E0#16
  | .ret => 0x00EE#16
  | .jp _ => 0x1000#16
  | .call _ => 0x2000#16
  | .seImm _ _ => 0x3000#16
  | .sneImm _ _ => 0x4000#16
  | .seReg _ _ => 0x5000#16
  | .ldImm _ _ => 0x6000#16
  | .addImm _ _ => 0x7000#16
  | .ldReg _ _ => 0x8000#16
  | .orReg _ _ => 0x8001#16
  | .andReg _ _ => 0x8002#16
  | .xorReg _ _ => 0x8003#16
  | .addReg _ _ => 0x8004#16
  | .sub _ _ => 0x8005#16
  | .shr _ _ => 0x8006#16
  | .subn _ _ => 0x8007#16
  | .shl _ _ => 0x800E#16
  | .sneReg _ _ => 0x9000#16
  | .ldI _ => 0xA000#16
  | .jpV0 _ => 0xB000#16
  | .rnd _ _ => 0xC000#16
  | .drw _ _ _ => 0xD000#16
  | .skp _ => 0xE09E#16
  | .sknp _ => 0xE0A1#16
  | .ldVxDt _ => 0xF007#16
  | .ldVxK _ => 0xF00A#16
  | .ldDtVx _ => 0xF015#16
  | .ldStVx _ => 0xF018#16
  | .addI _ => 0xF01E#16
  | .ldF _ => 0xF029#16
  | .ldB _ => 0xF033#16
  | .ldMemVx _ => 0xF055#16
  | .ldVxMem _ => 0xF065#16

end Sys2Proof
end

