-- ==== Sys2Proof/Machine/Blit.lean ====
section
/-! DEFINITION. The blit engine (spec 43_display.md R220 to R224), the only writer of the frame buffer. -/

namespace Sys2Proof.Machine

/-- FB[r][c] (R37). -/
def FrameBuffer.pixel (fb : FrameBuffer) (r : Fin 32) (c : Fin 64) : Bool := fb[r].getLsbD c

/-- Bit r * 64 + c of `frame_out` is FB[r][c]: row-major order (R49). -/
def FrameBuffer.frameBit (fb : FrameBuffer) (k : Fin 2048) : Bool :=
  fb.pixel ⟨k.val / 64, by omega⟩ ⟨k.val % 64, by omega⟩

/-- FB[r][c] <- FB[r][c] ^ 1 (R222). -/
def FrameBuffer.flip (fb : FrameBuffer) (r : Fin 32) (c : Fin 64) : FrameBuffer :=
  fb.set r (fb[r] ^^^ (1#64 <<< c.val))

/-- `clear()` (R221). -/
def FrameBuffer.cleared : FrameBuffer := Vector.replicate 32 0

/-- A row number reduced mod 32 (R224). -/
def wrapRow (r : Nat) : Fin 32 := Fin.ofNat 32 r

/-- A column number reduced mod 64 (R224). -/
def wrapCol (c : Nat) : Fin 64 := Fin.ofNat 64 c

/-- (row >> (7 - b)) & 1 == 1: pixel b of a sprite row, counted from the left (R222). -/
def spriteBit (row : Byte) (b : Nat) : Bool := row.getLsbD (7 - b)

/-- What the loops of R222 carry: the frame buffer and the collision bit. -/
abbrev BlitState := FrameBuffer × Bool

/-- One set sprite bit at a pixel: a pixel that was 1 is a collision, and the pixel is flipped (R222, R223). -/
def blitPixel (p : BlitState) (r : Fin 32) (c : Fin 64) : BlitState :=
  (p.1.flip r c, p.2 || p.1.pixel r c)

/-- The inner loop of R222: the 8 bits of one sprite row. -/
def blitRow (p : BlitState) (x0 : Nat) (r : Fin 32) (row : Byte) : BlitState :=
  (List.range 8).foldl (fun q b => if spriteBit row b then blitPixel q r (wrapCol (x0 + b)) else q) p

/-- The outer loop of R222, from sprite row k onwards. -/
def blitRows (x0 y0 : Nat) : Nat → List Byte → BlitState → BlitState
  | _, [], p => p
  | k, row :: rest, p => blitRows x0 y0 (k + 1) rest (blitRow p x0 (wrapRow (y0 + k)) row)

/-- `draw_sprite(x0, y0, rows)` (R222): the new frame buffer and the collision bit. -/
def drawSprite (fb : FrameBuffer) (x0 y0 : Byte) (rows : List Byte) : BlitState :=
  blitRows x0.toNat y0.toNat 0 rows (fb, false)

end Sys2Proof.Machine
end

