-- ==== Sys2Proof/Machine/Display.lean ====
section
/-! DEFINITION. The two display instructions (spec 43_display.md R226, R227). -/

namespace Sys2Proof.Machine

/-- 00E0 CLS (R226): VF is not changed. -/
def execCls (s : State) : Host.Outcome State Fault Refusal :=
  .next (s.setFb FrameBuffer.cleared).next

/-- Dxyn DRW Vx, Vy, n (R227): the coordinates are captured and the n sprite bytes read as one range before any pixel
changes; VF is written last, even when it is 0. -/
def execDrw (x y : Reg) (n : Nat) (s : State) : Host.Outcome State Fault Refusal :=
  s.commit (encode (.drw x y n))
    ((s.memRead s.dataAddress n).map fun rows =>
      let drawn := drawSprite s.fb (s.getV x) (s.getV y) rows
      ((s.setFb drawn.1).setV regF (collisionFlag drawn.2)).next)

end Sys2Proof.Machine
end

