-- ==== Sys2Proof/Machine/Flow.lean ====
section
/-! DEFINITION. Control transfer and skips (spec 40_flow.md R120 to R127). -/

namespace Sys2Proof.Machine

/-- 00EE RET (R120). -/
def execRet (s : State) : Host.Outcome State Fault Refusal :=
  s.commit (encode .ret) (s.pop.map fun (t, s') => s'.jump t)

/-- 1nnn JP nnn (R121). -/
def execJp (nnn : BitVec 12) (s : State) : Host.Outcome State Fault Refusal :=
  .next (s.jump (zext16 nnn))

/-- 2nnn CALL nnn (R122): the address of the word after the call is pushed. -/
def execCall (nnn : BitVec 12) (s : State) : Host.Outcome State Fault Refusal :=
  s.commit (encode (.call nnn)) ((s.push (s.pc + 2)).map fun s' => s'.jump (zext16 nnn))

/-- Bnnn JP V0, nnn (R123): always register 0. -/
def execJpV0 (nnn : BitVec 12) (s : State) : Host.Outcome State Fault Refusal :=
  .next (s.jump (offsetTarget (s.getV 0) nnn))

/-- 3xnn SE Vx, nn (R124). -/
def execSeImm (x : Reg) (nn : Byte) (s : State) : Host.Outcome State Fault Refusal :=
  .next (s.skip (decide (s.getV x = nn)))

/-- 4xnn SNE Vx, nn (R125). -/
def execSneImm (x : Reg) (nn : Byte) (s : State) : Host.Outcome State Fault Refusal :=
  .next (s.skip (decide (s.getV x ≠ nn)))

/-- 5xy0 SE Vx, Vy (R126). -/
def execSeReg (x y : Reg) (s : State) : Host.Outcome State Fault Refusal :=
  .next (s.skip (decide (s.getV x = s.getV y)))

/-- 9xy0 SNE Vx, Vy (R127). -/
def execSneReg (x y : Reg) (s : State) : Host.Outcome State Fault Refusal :=
  .next (s.skip (decide (s.getV x ≠ s.getV y)))

end Sys2Proof.Machine
end

