-- ==== Sys2Proof/Machine/IndexMemory.lean ====
section
/-! DEFINITION. The address register and memory transfers (spec 42_index_memory.md R190 to R195). -/

namespace Sys2Proof.Machine

/-- Annn LD I, nnn (R190). -/
def execLdI (nnn : BitVec 12) (s : State) : Host.Outcome State Fault Refusal :=
  .next (s.setI (zext16 nnn)).next

/-- Fx1E ADD I, Vx (R191): VF is not touched. -/
def execAddI (x : Reg) (s : State) : Host.Outcome State Fault Refusal :=
  s.commit (encode (.addI x)) ((addToI s.i (s.getV x)).map fun w => (s.setI w).next)

/-- Fx29 LD F, Vx (R192). -/
def execLdF (x : Reg) (s : State) : Host.Outcome State Fault Refusal :=
  .next (s.setI (glyphAddress (s.getV x))).next

/-- Fx33 LD B, Vx (R193): I is not changed. -/
def execLdB (x : Reg) (s : State) : Host.Outcome State Fault Refusal :=
  s.commit (encode (.ldB x))
    ((s.memWrite s.dataAddress (bcdDigits (s.getV x))).map fun s' => s'.next)

/-- Fx55 LD [I], Vx (R194): the registers are captured, stored, and I advances by x + 1. -/
def execLdMemVx (x : Reg) (s : State) : Host.Outcome State Fault Refusal :=
  s.commit (encode (.ldMemVx x))
    ((s.memWrite s.dataAddress (s.regBlock x)).map fun s' => (s'.advanceI x).next)

/-- Fx65 LD Vx, [I] (R195): the registers are loaded and I advances by x + 1. -/
def execLdVxMem (x : Reg) (s : State) : Host.Outcome State Fault Refusal :=
  s.commit (encode (.ldVxMem x))
    ((s.memRead s.dataAddress (x.val + 1)).map fun bs => ((s.loadRegs 0 bs).advanceI x).next)

end Sys2Proof.Machine
end

