-- ==== Sys2Proof/Machine/KeysTimers.lean ====
section
/-! DEFINITION. Keys and timers (spec 44_timers_keys.md R249 to R255). -/

namespace Sys2Proof.Machine

/-- Ex9E SKP Vx (R250). -/
def execSkp (x : Reg) (s : State) : Host.Outcome State Fault Refusal :=
  s.commit (encode (.skp x)) ((s.keyPressed (s.getV x)).map fun p => s.skip p)

/-- ExA1 SKNP Vx (R251). -/
def execSknp (x : Reg) (s : State) : Host.Outcome State Fault Refusal :=
  s.commit (encode (.sknp x)) ((s.keyPressed (s.getV x)).map fun p => s.skip (!p))

/-- Fx07 LD Vx, DT (R252). -/
def execLdVxDt (x : Reg) (s : State) : Host.Outcome State Fault Refusal :=
  .next (s.setV x s.dt).next

/-- Fx0A LD Vx, K (R253): the least-numbered pressed key, or hold, a complete step that changes nothing (R300). -/
def execLdVxK (x : Reg) (s : State) : Host.Outcome State Fault Refusal :=
  match leastPressed s.keys with
  | some k => .next (s.setV x (toByte k.val)).next
  | none => .next s

/-- Fx15 LD DT, Vx (R254). -/
def execLdDtVx (x : Reg) (s : State) : Host.Outcome State Fault Refusal :=
  .next (s.setDt (s.getV x)).next

/-- Fx18 LD ST, Vx (R255). -/
def execLdStVx (x : Reg) (s : State) : Host.Outcome State Fault Refusal :=
  .next (s.setSt (s.getV x)).next

end Sys2Proof.Machine
end

