-- ==== Sys2Proof/Machine/Cycle.lean ====
section
/-! DEFINITION. The instruction cycle, `step()` of R99: fetch, decode, execute. -/

namespace Sys2Proof.Machine

/-- The fetch of R99: two bytes at PC, big-endian (R69), or OutOfBoundsAccess. -/
def State.fetch (s : State) : Except Raise Word :=
  (s.memRead s.pc.toNat 2).map fun bs => wordOfBytes (bs.getD 0 0) (bs.getD 1 0)

/-- `step()` of R99, run as stage (e) of an iteration (R298). A faulting fetch leaves no word in the record (R282); an
ILLEGAL word halts before anything executes (R96); the checks come in the order of R285. -/
def runInstruction (s : State) : Host.Outcome State Fault Refusal :=
  match s.fetch with
  | .error r => .next (s.halt { kind := r.kind, pc := some s.pc, word := none, info := r.info })
  | .ok w =>
    match decode w with
    | .error _ => .next (s.haltAt w ⟨.unrecognizedOpcode, .word w⟩)
    | .ok i => exec i s

end Sys2Proof.Machine
end

