-- ==== Sys2Proof/Machine/Scheduler.lean ====
section
/-! DEFINITION. The scheduler (spec 60_exceptions.md R293 to R299): one iteration, stages (a) to (f), on the inputs the host
presents. Seconds are exact rationals; their sums are written out on numerators and denominators so that an iteration
evaluates (log entry 6). -/

namespace Sys2Proof.Machine

/-! ### Exact seconds -/

/-- a + b seconds. -/
def addSeconds (a b : Rat) : Rat := mkRat (a.num * b.den + b.num * a.den) (a.den * b.den)

/-- `delta_in` (R47). -/
def deltaIn (inp : HostInput) : Rat := mkRat inp.deltaNum inp.deltaDen

/-- min(d, DELTA_CAP) (R294). -/
def capDelta (d : Rat) : Rat := if d.num ≤ (deltaCap : Int) * d.den then d else mkRat deltaCap 1

/-- floor(acc / TICK), the ticks due (R296); 0 for a negative amount, which no run reaches. -/
def ticksDue (acc : Rat) : Nat := (acc.num.toNat * timerHz) / acc.den

/-- acc - n * TICK (R296). -/
def spendTicks (acc : Rat) (n : Nat) : Rat := mkRat (acc.num * timerHz - n * acc.den) (acc.den * timerHz)

/-! ### The timers -/

/-- One less, with a floor of 0 (R290). -/
def countDown (b : Byte) : Byte := if b = 0 then 0 else b - 1

/-- `tick()` (R290): both timers together. -/
def State.tick (s : State) : State := { s with dt := countDown s.dt, st := countDown s.st }

/-- n ticks. -/
def State.tickN : Nat → State → State
  | 0, s => s
  | n + 1, s => State.tickN n s.tick

/-! ### The stages -/

/-- The input of this iteration: the next one lined up, or else a free value (log entry 3). -/
def State.takeInput (s : State) : HostInput × State :=
  match s.hostInputs with
  | inp :: rest => (inp, { s with hostInputs := rest, iterations := s.iterations + 1 })
  | [] => (Config.hostInput s.iterations, { s with iterations := s.iterations + 1 })

/-- Stages (a) and (b): ACC <- ACC + min(delta_in, DELTA_CAP) (R294, R295). -/
def State.accumulate (s : State) (delta : Rat) : State := { s with acc := addSeconds s.acc (capDelta delta) }

/-- Stage (c): as many ticks as ACC holds, each taken from ACC (R296). -/
def State.catchUp (s : State) : State :=
  let n := ticksDue s.acc
  State.tickN n { s with acc := spendTicks s.acc n }

/-- Stages (a) to (c). -/
def State.passTime (s : State) (delta : Rat) : State := (s.accumulate delta).catchUp

/-- Stage (d), the keys: KEYS <- keys_in (R297). -/
def State.latchKeys (s : State) (keys : Keys) : State := { s with keys := keys }

/-- Stage (d), the quit signal: STATUS <- Quit; the iteration drives no frame (R297). -/
def State.quitNow (s : State) : State := { s with status := .quit, frameOut := none }

/-- Stage (f) (R299): frame_out <- FB; a failed `present` halts with HostAdapterError, outside any step. An iteration whose
step halted ends without it (R283). -/
def State.present (s : State) (ok : Bool) : State :=
  match s.status with
  | .running =>
    let driven := { s with frameOut := some s.fb }
    if ok then driven
    else driven.halt { kind := .hostAdapterError, pc := none, word := none, info := .adapter .display }
  | .halted _ | .quit => { s with frameOut := none }

/-- Everything before stage (e): the input taken and stages (a) to (d) but for the quit signal. -/
def State.beforeStep (s : State) : HostInput × State :=
  let taken := s.takeInput
  (taken.1, (taken.2.passTime (deltaIn taken.1)).latchKeys taken.1.keys)

/-- One iteration of a running core (R293). Quit is seen before the step (R285). -/
def runIteration (s : State) : Host.Outcome State Fault Refusal :=
  let begun := s.beforeStep
  if begun.1.quit then .next begun.2.quitNow
  else
    match runInstruction begun.2 with
    | .next t => .next (t.present begun.1.presentOk)
    | .fault f => .fault f
    | .refused r => .refused r

/-- The call a change of ST makes: none where ST stays zero or stays nonzero (R291). -/
def beepEdge (before after : Byte) : List BeepCall :=
  if before = 0 ∧ after ≠ 0 then [.start]
  else if before ≠ 0 ∧ after = 0 then [.stop]
  else []

/-- The calls the audio adapter gets during the iteration that starts in `s`, in order: one for the ticks of stage (c), one
for the step (R291; log entry 12). No state holds them and none depends on them. -/
def State.beepCalls (s : State) : List BeepCall :=
  let begun := s.beforeStep.2
  beepEdge s.st begun.st ++
    match runIteration s with
    | .next t => beepEdge begun.st t.st
    | .fault _ | .refused _ => []

end Sys2Proof.Machine
end

