-- ==== Sys2Proof/Machine/Step.lean ====
section
/-! DEFINITION. The machine's step, and the host's way to place an instruction. -/

namespace Sys2Proof.Machine

/-- One step of the machine: one scheduler iteration (R293; log entry 1). Only Running has a next step (R42). -/
def step (s : State) : Host.Outcome State Fault Refusal :=
  match s.status with
  | .running => runIteration s
  | .halted f => .fault (.halted f)
  | .quit => .fault .quit

/-- An iteration in which no time passes, the keys stay as they are, nobody quits and `present` succeeds. -/
def State.quietInput (s : State) : HostInput :=
  { deltaNum := 0, deltaDen := 1, keys := s.keys, quit := false, presentOk := true }

/-- `s` with the instruction whose bits are `w` (numbered as spec/opcode_table.json numbers them, bits at or above `nbits` 0)
stored at PC, and a quiet input lined up for the next iteration, whose stage (e) then fetches it (log entry 13). -/
def State.withFetchWord (s : State) (nbits w : Nat) : State :=
  let word : Word := BitVec.ofNat 16 (w % 2 ^ nbits)
  { s with
    mem := s.mem.setBytes s.params.fontTable s.pc.toNat [firstByte word, secondByte word]
    hostInputs := s.quietInput :: s.hostInputs }

end Sys2Proof.Machine
end

