-- ==== Sys2Proof/Certificates/Slice0/Obligations.lean ====
section
/-! DEFINITION. The statements for the provers. Each says which rule of spec/ it formalises. Numbers are written out, so that
a statement does not move with the model's own constants. -/

open Sys2Proof Sys2Proof.Machine

/-! ### Words the statements use -/

namespace Sys2Proof.Stated

/-- The 4-bit field that names a register (R91). -/
def field4 (r : Reg) : BitVec 4 := BitVec.ofNat 4 r.val

/-- Every byte of memory reads as before. -/
def SameBytes (s t : State) : Prop := ∀ a, t.readByte a = s.readByte a

/-- Only PC may differ. -/
def OnlyPc (s t : State) : Prop := t = { s with pc := t.pc } ∧ SameBytes s t

/-- Only I differs, and PC has moved to the next instruction. -/
def OnlyI (s t : State) : Prop := t = { s with i := t.i, pc := s.pc + 2 } ∧ SameBytes s t

/-- Only V may differ, and PC has moved to the next instruction. -/
def OnlyV (s t : State) : Prop := t = { s with v := t.v, pc := s.pc + 2 } ∧ SameBytes s t

/-- V[x] holds a value, every other register is as before, and only V differs, and PC has moved to the next instruction. -/
def WritesReg (s t : State) (x : Reg) (value : Nat) : Prop :=
  OnlyV s t ∧ (t.getV x).toNat = value ∧ ∀ r, r ≠ x → t.getV r = s.getV r

/-- VF holds a flag; of the other registers V[x] holds a value and the rest are as before; only V differs, and PC has moved to
the next instruction. With x = 0xF the flag is what remains. -/
def WritesRegThenFlag (s t : State) (x : Reg) (value flag : Nat) : Prop :=
  OnlyV s t ∧ (t.getV 15).toNat = flag ∧
    ∀ r : Reg, r ≠ 15 → (t.getV r).toNat = if r = x then value else (s.getV r).toNat

/-- The instruction took a fault of this kind and information: STATUS is Halted, and nothing else has changed. -/
def FaultsWith (i : Instr) (s : State) (kind : FaultKind) (info : FaultInfo) : Prop :=
  ∃ f, exec i s = .next { s with status := .halted f } ∧ f.kind = kind ∧ f.info = info

/-- The instruction took a fault: STATUS is Halted with the whole record, and nothing else has changed. -/
def TakesFault (i : Instr) (s : State) (word : Word) (kind : FaultKind) (info : FaultInfo) : Prop :=
  exec i s = .next { s with status := .halted ⟨kind, some s.pc, some word, info⟩ }

/-- The word at PC. -/
def wordAtPc (s : State) : Word := s.readByte s.pc.toNat ++ s.readByte (s.pc.toNat + 1)

/-- The table of R284: the fault an instruction raises in a state, if any, with the information R282 gives it. -/
def ownFault (i : Instr) (s : State) : Option Raise :=
  match i with
  | .ret => if s.stack.length = 0 then some ⟨.stackUnderflow, .depth 0⟩ else none
  | .call _ => if s.stack.length = s.params.stackLimit then some ⟨.stackOverflow, .depth s.params.stackLimit⟩ else none
  | .drw _ _ n => if s.i.toNat + n > 4096 then some ⟨.outOfBoundsAccess, .range s.i.toNat n⟩ else none
  | .skp x | .sknp x => if (s.getV x).toNat > 15 then some ⟨.outOfBoundsAccess, .key (s.getV x)⟩ else none
  | .addI x =>
    if s.i.toNat + (s.getV x).toNat > 0xFFFF then some ⟨.integerOverflow, .overflow s.i (s.getV x)⟩ else none
  | .ldB _ => if s.i.toNat + 3 > 4096 then some ⟨.outOfBoundsAccess, .range s.i.toNat 3⟩ else none
  | .ldMemVx x | .ldVxMem x =>
    if s.i.toNat + x.val + 1 > 4096 then some ⟨.outOfBoundsAccess, .range s.i.toNat (x.val + 1)⟩ else none
  | .cls | .jp _ | .seImm _ _ | .sneImm _ _ | .seReg _ _ | .ldImm _ _ | .addImm _ _ | .ldReg _ _ | .orReg _ _
  | .andReg _ _ | .xorReg _ _ | .addReg _ _ | .sub _ _ | .shr _ _ | .subn _ _ | .shl _ _ | .sneReg _ _ | .ldI _
  | .jpV0 _ | .rnd _ _ | .ldVxDt _ | .ldVxK _ | .ldDtVx _ | .ldStVx _ | .ldF _ => none

/-- The column "reads" of R22. -/
def readsV : Instr → List Reg
  | .seImm x _ | .sneImm x _ | .addImm x _ | .shr x _ | .shl x _ => [x]
  | .seReg x y | .sneReg x y | .orReg x y | .andReg x y | .xorReg x y | .addReg x y | .sub x y | .subn x y => [x, y]
  | .ldReg _ y => [y]
  | .jpV0 _ => [0]
  | .drw x y _ => [x, y]
  | .skp x | .sknp x | .ldDtVx x | .ldStVx x | .addI x | .ldF x | .ldB x => [x]
  | .ldMemVx x => (List.finRange 16).filter (fun r => r ≤ x)
  | .cls | .ret | .jp _ | .call _ | .ldImm _ _ | .ldI _ | .rnd _ _ | .ldVxDt _ | .ldVxK _ | .ldVxMem _ => []

/-- The column "writes" of R22. -/
def writesV : Instr → List Reg
  | .ldImm x _ | .addImm x _ | .ldReg x _ | .orReg x _ | .andReg x _ | .xorReg x _ | .rnd x _ => [x]
  | .addReg x _ | .sub x _ | .subn x _ | .shr x _ | .shl x _ => [x, 15]
  | .drw _ _ _ => [15]
  | .ldVxDt x | .ldVxK x => [x]
  | .ldVxMem x => (List.finRange 16).filter (fun r => r ≤ x)
  | .cls | .ret | .jp _ | .call _ | .seImm _ _ | .sneImm _ _ | .seReg _ _ | .sneReg _ _ | .ldI _ | .jpV0 _ | .skp _
  | .sknp _ | .ldDtVx _ | .ldStVx _ | .addI _ | .ldF _ | .ldB _ | .ldMemVx _ => []

/-- The word at PC writes neither timer: it is no Fx15 and no Fx18. -/
def NoTimerWrite (s : State) : Prop :=
  ∀ x, decode (wordAtPc s) ≠ .ok (.ldDtVx x) ∧ decode (wordAtPc s) ≠ .ok (.ldStVx x)

/-- A run of steps from s to t, one for each delta of the list: in each the host presents that delta, and none executes an Fx15
or Fx18. -/
def TimedRun : List Rat → State → State → Prop
  | [], s, t => t = s
  | d :: rest, s, t =>
    d = (s.beforeStep.1.deltaNum : Rat) / s.beforeStep.1.deltaDen ∧ NoTimerWrite s ∧
      ∃ u, step s = .next u ∧ TimedRun rest u t

/-- The timers and ACC after exact seconds have been spent from an ACC of 0: floor(60 S) ticks, the rest in ACC. -/
def SpentOn (s t : State) (total : Rat) : Prop :=
  t.dt.toNat = s.dt.toNat - ⌊60 * total⌋₊ ∧ t.st.toNat = s.st.toNat - ⌊60 * total⌋₊ ∧
    t.acc = total - (⌊60 * total⌋₊ : Rat) / 60

/-- A byte of the memory after `bs` has been written from a upwards. -/
def byteAfterWrite (s : State) (a : Nat) (bs : List Byte) (q : Nat) : Byte :=
  if h : a ≤ q ∧ q - a < bs.length then bs[q - a] else s.readByte q

/-- Some set bit of the n-row sprite at I falls on the pixel (r, c) when the sprite is drawn at column x0, row y0 (R222). -/
def Covered (s : State) (x0 y0 n : Nat) (r : Fin 32) (c : Fin 64) : Prop :=
  ∃ k < n, ∃ b < 8, (s.readByte (s.dataAddress + k)).getLsbD (7 - b) = true ∧
    r.val = (y0 + k) % 32 ∧ c.val = (x0 + b) % 64

/-- The bounds R30 and R102 give the stack and the program counter. -/
def FlowBounds (s : State) : Prop :=
  s.pc.toNat ≤ 0x10FE ∧ s.stack.length ≤ s.params.stackLimit ∧ ∀ e ∈ s.stack, e.toNat ≤ 4096

/-- The bounds R41 gives ACC after stage (c). -/
def AccBounds (s : State) : Prop := 0 ≤ s.acc ∧ s.acc < 1 / 60

end Sys2Proof.Stated

open Sys2Proof.Stated

/-! ### Encoding -/

/-- R91 to R94 (with the spec's decision D9): decoding the word of a well-formed instruction gives the instruction back, every
operand included. -/
def Obligations.DecodeOfEncodeGivesTheInstruction : Prop :=
  ∀ i : Instr, WellFormed i = true → decode (encode i) = .ok i

/-- R93, R94 (with the spec's decision D9): a word that decodes has one meaning, and encoding the instruction gives that word
back. -/
def Obligations.EncodeOfDecodedWordGivesTheWord : Prop :=
  ∀ (w : Word) (i : Instr), decode w = .ok i → encode i = w ∧ WellFormed i = true

/-- R93 (with the spec's decision D9): a word is the instruction of a row exactly when `w & mask == match`; so no word matches
two rows. -/
def Obligations.WordIsTheInstructionExactlyWhenItMatchesTheRow : Prop :=
  ∀ (i : Instr) (w : Word),
    w &&& rowMask i = rowMatch i ↔ ∃ j, decode w = .ok j ∧ rowMask j = rowMask i ∧ rowMatch j = rowMatch i

/-- R95 (the spec's decision D9): the ILLEGAL words, by families 0, 5 and 9, 8, E and F. -/
def Obligations.IllegalWordsAreExactlyThoseListed : Prop :=
  ∀ w : Word, decode w = .error (.illegal w) ↔
    (w.toNat / 4096 = 0x0 ∧ w ≠ 0x00E0#16 ∧ w ≠ 0x00EE#16) ∨
    ((w.toNat / 4096 = 0x5 ∨ w.toNat / 4096 = 0x9) ∧ w.toNat % 16 ≠ 0) ∨
    (w.toNat / 4096 = 0x8 ∧ w.toNat % 16 ∈ [0x8, 0x9, 0xA, 0xB, 0xC, 0xD, 0xF]) ∨
    (w.toNat / 4096 = 0xE ∧ w.toNat % 256 ∉ [0x9E, 0xA1]) ∨
    (w.toNat / 4096 = 0xF ∧ w.toNat % 256 ∉ [0x07, 0x0A, 0x15, 0x18, 0x1E, 0x29, 0x33, 0x55, 0x65])

/-- R93: words written out from the table, at least one of each family, decode to the instructions they stand for. -/
def Obligations.WrittenOutWordsDecodeToTheirInstructions : Prop :=
  decode 0b0000000011100000#16 = .ok .cls ∧
  decode 0b0010001101000101#16 = .ok (.call 0x345) ∧
  decode 0b0011101001111100#16 = .ok (.seImm 0xA 0x7C) ∧
  decode 0b1000000110100110#16 = .ok (.shr 0x1 0xA) ∧
  decode 0b1010111100000001#16 = .ok (.ldI 0xF01) ∧
  decode 0b1100110100001111#16 = .ok (.rnd 0xD 0x0F) ∧
  decode 0b1101001001111011#16 = .ok (.drw 0x2 0x7 11) ∧
  decode 0b1110011010100001#16 = .ok (.sknp 0x6) ∧
  decode 0b1111101100001010#16 = .ok (.ldVxK 0xB) ∧
  decode 0b1111010001100101#16 = .ok (.ldVxMem 0x4)

/-! ### The step -/

/-- R293, R298, R299, R283: when the bytes at PC decode to an instruction and the host does not quit, a step of a running core
is the instruction's own effect in the state stages (a) to (d) leave, followed by stage (f): the frame is driven, a failed
`present` halts, and an instruction that took a fault drives no frame. The model's own: the step is an iteration (log entry 1),
no frame reads as none (log entry 11), and the record of a failed `present` names the display (log entry 22). -/
def Obligations.StepRunsTheDecodedInstruction : Prop :=
  ∀ (s s1 : State) (inp : HostInput) (i : Instr),
    s.status = .running → s.beforeStep = (inp, s1) → inp.quit = false → s.pc.toNat ≤ 4094 →
    decode (wordAtPc s) = .ok i →
    ∃ t, exec i s1 = .next t ∧
      (t.status = .running → inp.presentOk = true → step s = .next { t with frameOut := some t.fb }) ∧
      (t.status = .running → inp.presentOk = false →
        step s = .next { t with
          frameOut := some t.fb
          status := .halted ⟨.hostAdapterError, none, none, .adapter .display⟩ }) ∧
      (t.status ≠ .running → step s = .next { t with frameOut := none })

/-- R294 to R297 (the spec's decisions D22, D31, D32): what stages (a) to (d) do before the step. The iteration's input is the
next one lined up (the free value `Config.hostInput` when none is: log entry 3); ACC gains the capped delta and loses one 1/60
s for each tick; both timers lose one for each tick, down to 0; KEYS are the keys presented; nothing else changes. The model's
own: the queue of inputs and the free value (log entry 3), and a delta written with denominator 0, which is 0 s as Lean's
division has it (log entry 5). -/
def Obligations.StagesAToDPassTimeAndLatchKeys : Prop :=
  ∀ s : State, 0 ≤ s.acc →
    (∀ inp rest, s.hostInputs = inp :: rest → s.beforeStep.1 = inp ∧ s.beforeStep.2.hostInputs = rest) ∧
    (s.hostInputs = [] → s.beforeStep.1 = Config.hostInput s.iterations ∧ s.beforeStep.2.hostInputs = []) ∧
    ∃ (d : Rat) (n : Nat),
      d = min ((s.beforeStep.1.deltaNum : Rat) / s.beforeStep.1.deltaDen) 3 ∧ n = ⌊(s.acc + d) * 60⌋₊ ∧
      s.beforeStep.2.acc = s.acc + d - n / 60 ∧
      s.beforeStep.2.dt.toNat = s.dt.toNat - n ∧
      s.beforeStep.2.st.toNat = s.st.toNat - n ∧
      s.beforeStep.2.keys = s.beforeStep.1.keys ∧
      s.beforeStep.2 = { s with
        acc := s.beforeStep.2.acc, dt := s.beforeStep.2.dt, st := s.beforeStep.2.st, keys := s.beforeStep.2.keys
        hostInputs := s.beforeStep.2.hostInputs, iterations := s.iterations + 1 }

/-- R99, R282, R283 (the spec's decisions D14, D20, D24): a fetch at PC of 4095 or more halts with OutOfBoundsAccess and no
word in the record. (That no frame is driven reads as none: log entry 11.) -/
def Obligations.FetchPastTheEndHalts : Prop :=
  ∀ (s s1 : State) (inp : HostInput),
    s.status = .running → s.beforeStep = (inp, s1) → inp.quit = false → 4095 ≤ s.pc.toNat →
    step s = .next { s1 with
      status := .halted ⟨.outOfBoundsAccess, some s.pc, none, .range s.pc.toNat 2⟩
      frameOut := none }

/-- R96: an ILLEGAL word halts with UnrecognizedOpcode and the word; nothing of it executes and PC is not advanced. -/
def Obligations.IllegalWordHaltsTheCore : Prop :=
  ∀ (s s1 : State) (inp : HostInput),
    s.status = .running → s.beforeStep = (inp, s1) → inp.quit = false → s.pc.toNat ≤ 4094 →
    decode (wordAtPc s) = .error (.illegal (wordAtPc s)) →
    ∃ t f, step s = .next t ∧ t = { s1 with status := .halted f, frameOut := t.frameOut } ∧ t.pc = s.pc ∧
      f.kind = .unrecognizedOpcode ∧ f.info = .word (wordAtPc s)

/-- R297 (the spec's decisions D23, D32): stage (d) latches KEYS, and a quit signal sets STATUS to Quit and ends the iteration
without stage (e) or (f); the ticks of stage (c) stand. (That no frame is driven reads as none: log entry 11.) -/
def Obligations.QuitEndsTheIterationBeforeTheStep : Prop :=
  ∀ (s s1 : State) (inp : HostInput),
    s.status = .running → s.beforeStep = (inp, s1) →
    s1.keys = inp.keys ∧ (inp.quit = true → step s = .next { s1 with status := .quit, frameOut := none })

/-- R299 (the spec's decision D25): stage (f) hands over the frame of the state the step left; a failed `present` then halts
with HostAdapterError and no pc. The record's absent word and its adapter's name are R282's (decision D20); that the name is
the display's is the model's inference (log entry 22). -/
def Obligations.StageFPresentsTheFrameOrHalts : Prop :=
  ∀ (s s1 u : State) (inp : HostInput),
    s.status = .running → s.beforeStep = (inp, s1) → inp.quit = false →
    runInstruction s1 = .next u → u.status = .running →
    ∃ t, step s = .next t ∧ t.frameOut = some u.fb ∧
      t.status = (if inp.presentOk then .running else .halted ⟨.hostAdapterError, none, none, .adapter .display⟩) ∧
      t = { u with frameOut := t.frameOut, status := t.status }

/-- R42 (the spec's decision D33): only Running has a next step, and it always has one; Halted and Quit are final, and asking
either for a step is answered by the model's own stop of that name (log entry 2). -/
def Obligations.OnlyRunningHasANextStep : Prop :=
  ∀ s : State, ((∃ t, step s = .next t) ↔ s.status = .running) ∧
    (∀ f, s.status = .halted f → step s = .fault (.halted f)) ∧ (s.status = .quit → step s = .fault .quit)

/-- R283, R297, R299 (the spec's decisions D23 to D25): an iteration drives a frame exactly when it reaches stage (f), which a
quit signal and a fault of the step both prevent. (Driving none reads as none: log entry 11.) -/
def Obligations.OnlyStageFDrivesAFrame : Prop :=
  ∀ (s s1 t : State) (inp : HostInput), s.beforeStep = (inp, s1) → step s = .next t →
    (t.frameOut ≠ none ↔ inp.quit = false ∧ ∃ u, runInstruction s1 = .next u ∧ u.status = .running)

/-- R286, R282, R283 (the spec's decisions D14, D20, D24): faults are precise. A step that halts with a fault that names a pc
leaves exactly the state before the instruction plus the record; the pc is that instruction's and the word is the one there,
none where the fetch itself faulted; no frame is driven, which reads as none (log entry 11). The one fault without a pc is a
failed `present`, after a completed instruction. -/
def Obligations.FaultsArePrecise : Prop :=
  ∀ (s s1 t : State) (inp : HostInput) (f : FaultRecord),
    s.beforeStep = (inp, s1) → step s = .next t → t.status = .halted f →
    (f.pc = some s.pc ∧ f.word = (if s.pc.toNat ≤ 4094 then some (wordAtPc s) else none) ∧
      t = { s1 with status := .halted f, frameOut := none }) ∨
    (f.pc = none ∧ f.word = none ∧ f.kind = .hostAdapterError ∧
      ∃ u, runInstruction s1 = .next u ∧ u.status = .running ∧
        t = { u with status := .halted f, frameOut := some u.fb })

/-- R284 (derived by the spec), R13 and R282 (its decisions D14, D20): each instruction faults exactly in its own case of the
table, with its own record; there it commits no write at all, and everywhere else it completes with STATUS as it was. The
record's word is the instruction's encoding (the model's inference, log entry 15). The stack holds at most STACK_LIMIT entries
(R30), which every step keeps: StepKeepsPcAndStackInBounds. -/
def Obligations.EveryInstructionFaultsExactlyInItsOwnCase : Prop :=
  ∀ (i : Instr) (s : State), s.stack.length ≤ s.params.stackLimit →
    (∀ r, ownFault i s = some r → TakesFault i s (encode i) r.kind r.info) ∧
    (ownFault i s = none → ∃ t, exec i s = .next t ∧ t.status = s.status)

/-! ### Invariants -/

/-- Every step keeps the canonical form of memory, under which equal memories are equal lists (R60, R63, R68; the list form
is the model's own, log entry 10). -/
def Obligations.StepKeepsMemoryCanonical : Prop :=
  ∀ s t : State, s.memWf → step s = .next t → t.memWf

/-- R30, and R102, which the spec derives: every step keeps PC at most 0x10FE, at most STACK_LIMIT return addresses and each
of them at most 4096; and from any state it changes no parameter (R8; held in State by log entry 28). -/
def Obligations.StepKeepsPcAndStackInBounds : Prop :=
  ∀ s t : State, step s = .next t → (FlowBounds s → FlowBounds t) ∧ t.params = s.params

/-- R41 (the spec's decision D22): every step leaves 0 <= ACC < TICK, even from an ACC that holds more. -/
def Obligations.StepLeavesAccBelowOneTick : Prop :=
  ∀ s t : State, 0 ≤ s.acc → step s = .next t → AccBounds t

/-- The state of R334 and every state a construction gives, the ROM loaded, meet the three invariants, whatever the parameters
and the ROM (R8, R330, R332, R334). The canonical form of memory is the model's own (log entry 10); that an adapter fails to
construct is an argument, and such a construction gives no state (log entry 14). -/
def Obligations.ResetMeetsTheInvariants : Prop :=
  ∀ p : Params,
    ((State.initial p).memWf ∧ FlowBounds (State.initial p) ∧ AccBounds (State.initial p)) ∧
    ∀ (failed : Option Adapter) (rom : List Byte) (s : State), State.construct p failed rom = .ok s →
      s.memWf ∧ FlowBounds s ∧ AccBounds s

/-! ### Who writes what -/

/-- R24, R33, R35, R37, R39, R41, R48, R68: of all instructions only those named change I, the stack, a timer, the frame
buffer, a byte of memory or the draws of `rand_in`; none changes KEYS, ACC, `frame_out`, a parameter (log entry 28) or the
lined-up inputs. The draws' queue and counter (log entry 4) and the inputs' (log entry 3) are the model's own. -/
def Obligations.OnlyTheNamedInstructionsWriteEachElement : Prop :=
  ∀ (i : Instr) (s t : State), exec i s = .next t →
    (t.i ≠ s.i → (∃ nnn, i = .ldI nnn) ∨ ∃ x, i = .addI x ∨ i = .ldF x ∨ i = .ldMemVx x ∨ i = .ldVxMem x) ∧
    (t.stack ≠ s.stack → i = .ret ∨ ∃ nnn, i = .call nnn) ∧
    (t.dt ≠ s.dt → ∃ x, i = .ldDtVx x) ∧
    (t.st ≠ s.st → ∃ x, i = .ldStVx x) ∧
    (t.fb ≠ s.fb → i = .cls ∨ ∃ x y n, i = .drw x y n) ∧
    ((∃ a, t.readByte a ≠ s.readByte a) → ∃ x, i = .ldB x ∨ i = .ldMemVx x) ∧
    (t.randIn ≠ s.randIn ∨ t.draws ≠ s.draws → ∃ x nn, i = .rnd x nn) ∧
    t.keys = s.keys ∧ t.acc = s.acc ∧ t.frameOut = s.frameOut ∧ t.params = s.params ∧
    t.hostInputs = s.hostInputs ∧ t.iterations = s.iterations

/-- The upper bound of R22's table: an instruction writes no general register outside its "writes" column, and what it does
does not depend on any general register outside its "reads" column: from states that agree on those and differ in other
registers, it writes the same values (or leaves a register of the column unwritten in both) and changes everything else in the
same way. -/
def Obligations.NoRegisterOutsideTheTableIsReadOrWritten : Prop :=
  ∀ (i : Instr) (s s' t t' : State),
    (∀ r ∈ readsV i, s'.getV r = s.getV r) → s' = { s with v := s'.v } →
    exec i s = .next t → exec i s' = .next t' →
    (∀ r, r ∉ writesV i → t.getV r = s.getV r) ∧
    (∀ r ∈ writesV i, t'.getV r = t.getV r ∨ (t.getV r = s.getV r ∧ t'.getV r = s'.getV r)) ∧
    t' = { t with v := t'.v }

/-! ### Control transfer and skips -/

/-- R121: JP nnn. -/
def Obligations.JumpGoesToItsAddress : Prop :=
  ∀ (nnn : BitVec 12) (s : State), decode (0x1#4 ++ nnn) = .ok (.jp nnn) ∧
    ∃ t, exec (.jp nnn) s = .next t ∧ t.pc.toNat = nnn.toNat ∧ OnlyPc s t

/-- R123 (the spec's decision D36): JP V0, nnn goes to the exact sum, not reduced to 12 bits. -/
def Obligations.JumpWithOffsetGoesToTheExactSum : Prop :=
  ∀ (nnn : BitVec 12) (s : State), decode (0xB#4 ++ nnn) = .ok (.jpV0 nnn) ∧
    ∃ t, exec (.jpV0 nnn) s = .next t ∧ t.pc.toNat = (s.getV 0).toNat + nnn.toNat ∧ OnlyPc s t

/-- R122 (the spec's decision D6): CALL pushes PC + 2 and jumps; with STACK_LIMIT entries on the stack (R8, default 16) it
raises StackOverflow and neither happens. -/
def Obligations.CallPushesTheReturnAddressOrOverflows : Prop :=
  ∀ (nnn : BitVec 12) (s : State), decode (0x2#4 ++ nnn) = .ok (.call nnn) ∧
    (s.stack.length < s.params.stackLimit → ∃ t, exec (.call nnn) s = .next t ∧ t.pc.toNat = nnn.toNat ∧
      t.stack = s.stack ++ [s.pc + 2] ∧ t = { s with pc := t.pc, stack := t.stack } ∧ SameBytes s t) ∧
    (s.stack.length = s.params.stackLimit → FaultsWith (.call nnn) s .stackOverflow (.depth s.params.stackLimit))

/-- R120, R32: RET pops the top entry into PC; on an empty stack it raises StackUnderflow and writes nothing (R13, the spec's
decision D14). -/
def Obligations.ReturnPopsTheStackOrUnderflows : Prop :=
  ∀ s : State, decode 0x00EE#16 = .ok .ret ∧
    (∀ below top, s.stack = below ++ [top] → ∃ t, exec .ret s = .next t ∧ t.pc = top ∧ t.stack = below ∧
      t = { s with pc := t.pc, stack := t.stack } ∧ SameBytes s t) ∧
    (s.stack = [] → FaultsWith .ret s .stackUnderflow (.depth 0))

/-- R120, R122, R129: a return right after a call comes back to the word after the call, and the pair changes nothing else. -/
def Obligations.ReturnUndoesCall : Prop :=
  ∀ (nnn : BitVec 12) (s : State), s.stack.length < s.params.stackLimit →
    ∃ t, exec (.call nnn) s = .next t ∧ exec .ret t = .next { s with pc := s.pc + 2 }

/-- R124, R125: SE and SNE with an immediate. -/
def Obligations.SkipsOnAnImmediate : Prop :=
  ∀ (x : Reg) (nn : Byte) (s : State),
    decode (0x3#4 ++ field4 x ++ nn) = .ok (.seImm x nn) ∧
    decode (0x4#4 ++ field4 x ++ nn) = .ok (.sneImm x nn) ∧
    (∃ t, exec (.seImm x nn) s = .next t ∧ t.pc = s.pc + (if s.getV x = nn then 4 else 2) ∧ OnlyPc s t) ∧
    (∃ t, exec (.sneImm x nn) s = .next t ∧ t.pc = s.pc + (if s.getV x = nn then 2 else 4) ∧ OnlyPc s t)

/-- R126, R127 (the spec's decision D9): SE and SNE with two registers; a nonzero low nibble is illegal. -/
def Obligations.SkipsOnTwoRegisters : Prop :=
  ∀ (x y : Reg) (n : BitVec 4) (s : State),
    decode (0x5#4 ++ field4 x ++ field4 y ++ n) =
      (if n = 0 then .ok (.seReg x y) else .error (.illegal (0x5#4 ++ field4 x ++ field4 y ++ n))) ∧
    decode (0x9#4 ++ field4 x ++ field4 y ++ n) =
      (if n = 0 then .ok (.sneReg x y) else .error (.illegal (0x9#4 ++ field4 x ++ field4 y ++ n))) ∧
    (∃ t, exec (.seReg x y) s = .next t ∧ t.pc = s.pc + (if s.getV x = s.getV y then 4 else 2) ∧ OnlyPc s t) ∧
    (∃ t, exec (.sneReg x y) s = .next t ∧ t.pc = s.pc + (if s.getV x = s.getV y then 2 else 4) ∧ OnlyPc s t)

/-- R249, R250, R251 (the spec's decision D15): SKP and SKNP on the level of the key Vx names; a key number above 15 faults,
its high nibble not masked off. -/
def Obligations.SkipsOnAKey : Prop :=
  ∀ (x : Reg) (s : State),
    decode (0xE#4 ++ field4 x ++ 0x9E#8) = .ok (.skp x) ∧
    decode (0xE#4 ++ field4 x ++ 0xA1#8) = .ok (.sknp x) ∧
    (∀ h : (s.getV x).toNat < 16,
      (∃ t, exec (.skp x) s = .next t ∧ t.pc = s.pc + (if s.keys[(s.getV x).toNat] then 4 else 2) ∧ OnlyPc s t) ∧
      (∃ t, exec (.sknp x) s = .next t ∧ t.pc = s.pc + (if s.keys[(s.getV x).toNat] then 2 else 4) ∧ OnlyPc s t)) ∧
    (15 < (s.getV x).toNat →
      FaultsWith (.skp x) s .outOfBoundsAccess (.key (s.getV x)) ∧
      FaultsWith (.sknp x) s .outOfBoundsAccess (.key (s.getV x)))

/-! ### Register loads and arithmetic -/

/-- R150, R151, R152: LD Vx, nn; ADD Vx, nn, which wraps and writes no flag; LD Vx, Vy. -/
def Obligations.LoadsAndAddImmediate : Prop :=
  ∀ (x y : Reg) (nn : Byte) (s : State),
    decode (0x6#4 ++ field4 x ++ nn) = .ok (.ldImm x nn) ∧
    decode (0x7#4 ++ field4 x ++ nn) = .ok (.addImm x nn) ∧
    decode (0x8#4 ++ field4 x ++ field4 y ++ 0x0#4) = .ok (.ldReg x y) ∧
    (∃ t, exec (.ldImm x nn) s = .next t ∧ WritesReg s t x nn.toNat) ∧
    (∃ t, exec (.addImm x nn) s = .next t ∧ WritesReg s t x (((s.getV x).toNat + nn.toNat) % 256)) ∧
    (∃ t, exec (.ldReg x y) s = .next t ∧ WritesReg s t x (s.getV y).toNat)

/-- R153, R154, R155 (the spec's decision D11): OR, AND and XOR; VF is not touched unless it is the destination. -/
def Obligations.BitwiseOperationsLeaveVFAlone : Prop :=
  ∀ (x y : Reg) (s : State),
    decode (0x8#4 ++ field4 x ++ field4 y ++ 0x1#4) = .ok (.orReg x y) ∧
    decode (0x8#4 ++ field4 x ++ field4 y ++ 0x2#4) = .ok (.andReg x y) ∧
    decode (0x8#4 ++ field4 x ++ field4 y ++ 0x3#4) = .ok (.xorReg x y) ∧
    (∃ t, exec (.orReg x y) s = .next t ∧ WritesReg s t x ((s.getV x).toNat ||| (s.getV y).toNat)) ∧
    (∃ t, exec (.andReg x y) s = .next t ∧ WritesReg s t x ((s.getV x).toNat &&& (s.getV y).toNat)) ∧
    (∃ t, exec (.xorReg x y) s = .next t ∧ WritesReg s t x ((s.getV x).toNat ^^^ (s.getV y).toNat))

/-- R156 (the spec's decision D10): ADD Vx, Vy; the carry is written last, so with x = 0xF it is what remains. -/
def Obligations.AddWritesSumThenCarry : Prop :=
  ∀ (x y : Reg) (s : State),
    decode (0x8#4 ++ field4 x ++ field4 y ++ 0x4#4) = .ok (.addReg x y) ∧
    ∃ t, exec (.addReg x y) s = .next t ∧
      WritesRegThenFlag s t x (((s.getV x).toNat + (s.getV y).toNat) % 256)
        (if (s.getV x).toNat + (s.getV y).toNat > 255 then 1 else 0)

/-- R157, R159 (the spec's decisions D10, D35): SUB and SUBN; the flag is the strict comparison of the values before the
write, written last. -/
def Obligations.SubtractionsWriteDifferenceThenStrictFlag : Prop :=
  ∀ (x y : Reg) (s : State),
    decode (0x8#4 ++ field4 x ++ field4 y ++ 0x5#4) = .ok (.sub x y) ∧
    decode (0x8#4 ++ field4 x ++ field4 y ++ 0x7#4) = .ok (.subn x y) ∧
    (∃ t, exec (.sub x y) s = .next t ∧
      WritesRegThenFlag s t x (((s.getV x).toNat + 256 - (s.getV y).toNat) % 256)
        (if (s.getV x).toNat > (s.getV y).toNat then 1 else 0)) ∧
    (∃ t, exec (.subn x y) s = .next t ∧
      WritesRegThenFlag s t x (((s.getV y).toNat + 256 - (s.getV x).toNat) % 256)
        (if (s.getV y).toNat > (s.getV x).toNat then 1 else 0))

/-- R158, R160 (the spec's decision D10): SHR and SHL of Vx, whatever y; VF is written first and V[x] reread, so with x = 0xF
it ends as the shifted flag. -/
def Obligations.ShiftsWriteFlagThenShiftedValue : Prop :=
  ∀ (x y : Reg) (s : State),
    decode (0x8#4 ++ field4 x ++ field4 y ++ 0x6#4) = .ok (.shr x y) ∧
    decode (0x8#4 ++ field4 x ++ field4 y ++ 0xE#4) = .ok (.shl x y) ∧
    (∃ t, exec (.shr x y) s = .next t ∧
      WritesRegThenFlag s t x ((s.getV x).toNat / 2) (if x = 15 then 0 else (s.getV x).toNat % 2)) ∧
    (∃ t, exec (.shl x y) s = .next t ∧
      WritesRegThenFlag s t x ((s.getV x).toNat * 2 % 256)
        (if x = 15 then 2 * ((s.getV x).toNat / 128) else (s.getV x).toNat / 128))

/-- R163, which the spec derives: the same-register forms, for x other than 0xF. -/
def Obligations.SameRegisterForms : Prop :=
  ∀ (x : Reg) (s : State), x ≠ 15 →
    exec (.ldReg x x) s = .next { s with pc := s.pc + 2 } ∧
    exec (.orReg x x) s = .next { s with pc := s.pc + 2 } ∧
    exec (.andReg x x) s = .next { s with pc := s.pc + 2 } ∧
    (∃ t, exec (.xorReg x x) s = .next t ∧ WritesReg s t x 0) ∧
    (∃ t, exec (.addReg x x) s = .next t ∧
      WritesRegThenFlag s t x (2 * (s.getV x).toNat % 256) ((s.getV x).toNat / 128)) ∧
    (∃ t, exec (.sub x x) s = .next t ∧ WritesRegThenFlag s t x 0 0) ∧
    (∃ t, exec (.subn x x) s = .next t ∧ WritesRegThenFlag s t x 0 0)

/-- R161, R48 (the spec's decision D17): RND writes one fresh draw under the mask. The draw is the next byte lined up at
`rand_in`, which is taken off, or else a free value no statement fixes (log entry 4). -/
def Obligations.RandomWritesOneFreshDrawUnderTheMask : Prop :=
  ∀ (x : Reg) (nn : Byte) (s : State),
    decode (0xC#4 ++ field4 x ++ nn) = .ok (.rnd x nn) ∧
    ∃ (t : State) (draw : Byte), exec (.rnd x nn) s = .next t ∧
      t.getV x = draw &&& nn ∧ t.getV x &&& ~~~nn = 0 ∧
      (∀ b rest, s.randIn = b :: rest → draw = b ∧ t.randIn = rest) ∧ (s.randIn = [] → t.randIn = []) ∧
      t.draws = s.draws + 1 ∧ (∀ r, r ≠ x → t.getV r = s.getV r) ∧
      t = { s with v := t.v, pc := s.pc + 2, randIn := t.randIn, draws := t.draws } ∧ SameBytes s t

/-! ### Address register and memory transfers -/

/-- R190, R192: LD I, nnn, and LD F, Vx, which ignores the high nibble of Vx. -/
def Obligations.AddressRegisterLoads : Prop :=
  ∀ (nnn : BitVec 12) (x : Reg) (s : State),
    decode (0xA#4 ++ nnn) = .ok (.ldI nnn) ∧ decode (0xF#4 ++ field4 x ++ 0x29#8) = .ok (.ldF x) ∧
    (∃ t, exec (.ldI nnn) s = .next t ∧ t.i.toNat = nnn.toNat ∧ OnlyI s t) ∧
    (∃ t, exec (.ldF x) s = .next t ∧ t.i.toNat = (s.getV x).toNat % 16 * 5 ∧ OnlyI s t)

/-- R191 (the spec's decision D12): ADD I, Vx writes the exact sum and no flag, or raises IntegerOverflow when 16 bits do not
hold it. -/
def Obligations.AddToIWritesTheExactSumOrOverflows : Prop :=
  ∀ (x : Reg) (s : State),
    decode (0xF#4 ++ field4 x ++ 0x1E#8) = .ok (.addI x) ∧
    (s.i.toNat + (s.getV x).toNat ≤ 0xFFFF → ∃ t, exec (.addI x) s = .next t ∧
      t.i.toNat = s.i.toNat + (s.getV x).toNat ∧ OnlyI s t) ∧
    (s.i.toNat + (s.getV x).toNat > 0xFFFF →
      FaultsWith (.addI x) s .integerOverflow (.overflow s.i (s.getV x)))

/-- R193 (the spec's decision D13, the digit order): LD B, Vx writes the hundreds, tens and ones digits at I, I + 1 and I + 2
and leaves I alone; a range that does not fit faults and writes nothing. -/
def Obligations.BcdDigitsGoToMemory : Prop :=
  ∀ (x : Reg) (s : State),
    decode (0xF#4 ++ field4 x ++ 0x33#8) = .ok (.ldB x) ∧
    (s.i.toNat + 3 ≤ 4096 → ∃ t, exec (.ldB x) s = .next t ∧
      (t.readByte s.dataAddress).toNat = (s.getV x).toNat / 100 ∧
      (t.readByte (s.dataAddress + 1)).toNat = (s.getV x).toNat / 10 % 10 ∧
      (t.readByte (s.dataAddress + 2)).toNat = (s.getV x).toNat % 10 ∧
      (∀ a, a < s.dataAddress ∨ s.dataAddress + 3 ≤ a → t.readByte a = s.readByte a) ∧
      t = { s with mem := t.mem, pc := s.pc + 2 }) ∧
    (s.i.toNat + 3 > 4096 → FaultsWith (.ldB x) s .outOfBoundsAccess (.range s.i.toNat 3))

/-- R194: LD [I], Vx stores V0 to Vx from I upwards and adds x + 1 to I; a range that does not fit faults, writes nothing and
leaves I alone. -/
def Obligations.StoreRegistersWritesTheBlockAndAdvancesI : Prop :=
  ∀ (x : Reg) (s : State),
    decode (0xF#4 ++ field4 x ++ 0x55#8) = .ok (.ldMemVx x) ∧
    (s.i.toNat + x.val + 1 ≤ 4096 → ∃ t, exec (.ldMemVx x) s = .next t ∧
      (∀ k : Reg, k ≤ x → t.readByte (s.dataAddress + k.val) = s.getV k) ∧
      (∀ a, a < s.dataAddress ∨ s.dataAddress + (x.val + 1) ≤ a → t.readByte a = s.readByte a) ∧
      t.i.toNat = s.i.toNat + x.val + 1 ∧
      t = { s with mem := t.mem, i := t.i, pc := s.pc + 2 }) ∧
    (s.i.toNat + x.val + 1 > 4096 →
      FaultsWith (.ldMemVx x) s .outOfBoundsAccess (.range s.i.toNat (x.val + 1)))

/-- R195: LD Vx, [I] loads V0 to Vx from I upwards and adds x + 1 to I; a range that does not fit faults and changes no
register. -/
def Obligations.LoadRegistersReadsTheBlockAndAdvancesI : Prop :=
  ∀ (x : Reg) (s : State),
    decode (0xF#4 ++ field4 x ++ 0x65#8) = .ok (.ldVxMem x) ∧
    (s.i.toNat + x.val + 1 ≤ 4096 → ∃ t, exec (.ldVxMem x) s = .next t ∧
      (∀ k : Reg, t.getV k = if k ≤ x then s.readByte (s.dataAddress + k.val) else s.getV k) ∧
      t.i.toNat = s.i.toNat + x.val + 1 ∧
      t = { s with v := t.v, i := t.i, pc := s.pc + 2 } ∧ SameBytes s t) ∧
    (s.i.toNat + x.val + 1 > 4096 →
      FaultsWith (.ldVxMem x) s .outOfBoundsAccess (.range s.i.toNat (x.val + 1)))

/-- R194, R195: a block stored and loaded again from the same address gives back the stored registers, whatever the registers
hold in between, and leaves the others. -/
def Obligations.LoadAfterStoreRestoresTheRegisters : Prop :=
  ∀ (x : Reg) (s : State) (between : Vector Byte 16), s.i.toNat + x.val + 1 ≤ 4096 →
    ∃ t u, exec (.ldMemVx x) s = .next t ∧ exec (.ldVxMem x) { t with v := between, i := s.i } = .next u ∧
      (∀ k : Reg, k ≤ x → u.getV k = s.getV k) ∧ (∀ k : Reg, x < k → u.getV k = between[k]) ∧
      u.i = t.i ∧ u.mem = t.mem

/-! ### Frame buffer and sprites -/

/-- R226: CLS clears every pixel and changes nothing else. -/
def Obligations.ClearScreenClearsEveryPixel : Prop :=
  ∀ s : State, decode 0x00E0#16 = .ok .cls ∧
    ∃ t, exec .cls s = .next t ∧ (∀ r c, t.fb.pixel r c = false) ∧
      t = { s with fb := t.fb, pc := s.pc + 2 } ∧ SameBytes s t

/-- R222, R223, R224, R227 (the spec's decision D18; bit order of R222): DRW inverts exactly the pixels the sprite's set bits
fall on, wrapping at both edges, and VF is 1 exactly when one of them was set before; the coordinates are the values before VF
is written. A sprite that does not fit in memory faults. -/
def Obligations.DrawInvertsTheCoveredPixelsAndReportsCollision : Prop :=
  ∀ (x y : Reg) (n : Nat) (s : State), n ≤ 15 →
    decode (0xD#4 ++ field4 x ++ field4 y ++ BitVec.ofNat 4 n) = .ok (.drw x y n) ∧
    (s.i.toNat + n ≤ 4096 → ∃ t, exec (.drw x y n) s = .next t ∧
      (∀ r c, (Covered s (s.getV x).toNat (s.getV y).toNat n r c → t.fb.pixel r c = !s.fb.pixel r c) ∧
        (¬ Covered s (s.getV x).toNat (s.getV y).toNat n r c → t.fb.pixel r c = s.fb.pixel r c)) ∧
      ((∃ r c, Covered s (s.getV x).toNat (s.getV y).toNat n r c ∧ s.fb.pixel r c = true) → t.getV 15 = 1) ∧
      ((¬ ∃ r c, Covered s (s.getV x).toNat (s.getV y).toNat n r c ∧ s.fb.pixel r c = true) → t.getV 15 = 0) ∧
      (∀ r, r ≠ 15 → t.getV r = s.getV r) ∧
      t = { s with v := t.v, fb := t.fb, pc := s.pc + 2 } ∧ SameBytes s t) ∧
    (s.i.toNat + n > 4096 →
      FaultsWith (.drw x y n) s .outOfBoundsAccess (.range s.i.toNat n))

/-- R228, which the spec derives: drawing the same sprite twice at the same coordinates restores the frame buffer, and the
second draw reports a collision exactly when some set sprite bit fell on a pixel that was clear before the first. -/
def Obligations.DrawingTwiceRestoresTheFrameBuffer : Prop :=
  ∀ (fb : FrameBuffer) (x0 y0 : Byte) (rows : List Byte), rows.length ≤ 15 →
    (drawSprite (drawSprite fb x0 y0 rows).1 x0 y0 rows).1 = fb ∧
    ((drawSprite (drawSprite fb x0 y0 rows).1 x0 y0 rows).2 = true ↔
      ∃ (k : Nat) (h : k < rows.length) (b : Nat) (r : Fin 32) (c : Fin 64), b < 8 ∧
        rows[k].getLsbD (7 - b) = true ∧ r.val = (y0.toNat + k) % 32 ∧ c.val = (x0.toNat + b) % 64 ∧
        fb.pixel r c = false)

/-! ### Keys and timers -/

/-- R252, R254, R255: LD Vx, DT; LD DT, Vx; LD ST, Vx, after which `beep_out` is true exactly when the value is not 0. R291 (the
spec's decision D26): writing a nonzero value over ST = 0 calls `start_beep`, writing 0 over a nonzero ST calls `stop_beep`, and
any other write calls neither; the list of calls, `beepEdge`, is the model's own (log entry 12). -/
def Obligations.TimerTransfers : Prop :=
  ∀ (x : Reg) (s : State),
    decode (0xF#4 ++ field4 x ++ 0x07#8) = .ok (.ldVxDt x) ∧
    decode (0xF#4 ++ field4 x ++ 0x15#8) = .ok (.ldDtVx x) ∧
    decode (0xF#4 ++ field4 x ++ 0x18#8) = .ok (.ldStVx x) ∧
    (∃ t, exec (.ldVxDt x) s = .next t ∧ WritesReg s t x s.dt.toNat) ∧
    (∃ t, exec (.ldDtVx x) s = .next t ∧ t.dt = s.getV x ∧ t = { s with dt := t.dt, pc := s.pc + 2 } ∧ SameBytes s t) ∧
    (∃ t, exec (.ldStVx x) s = .next t ∧ t.st = s.getV x ∧ (t.beepOut = true ↔ (s.getV x).toNat ≠ 0) ∧
      (s.st = 0 → s.getV x ≠ 0 → beepEdge s.st t.st = [.start]) ∧
      (s.st ≠ 0 → s.getV x = 0 → beepEdge s.st t.st = [.stop]) ∧
      ((s.st = 0 ↔ s.getV x = 0) → beepEdge s.st t.st = []) ∧
      t = { s with st := t.st, pc := s.pc + 2 } ∧ SameBytes s t)

/-- R253 (the spec's decision D16): LD Vx, K stores the least pressed key; with no key pressed it changes no state at all. -/
def Obligations.KeyWaitStoresTheLeastKeyOrHolds : Prop :=
  ∀ (x : Reg) (s : State),
    decode (0xF#4 ++ field4 x ++ 0x0A#8) = .ok (.ldVxK x) ∧
    (∀ k : Reg, s.keys[k] = true → (∀ j : Reg, j < k → s.keys[j] = false) →
      ∃ t, exec (.ldVxK x) s = .next t ∧ WritesReg s t x k.val) ∧
    ((∀ k : Reg, s.keys[k] = false) → exec (.ldVxK x) s = .next s)

/-- R300: a waiting Fx0A is a complete step: the iteration runs its other stages, the frame is driven, and the next iteration
fetches the same Fx0A. -/
def Obligations.WaitingForAKeyIsACompleteStep : Prop :=
  ∀ (s s1 : State) (inp : HostInput) (x : Reg),
    s.status = .running → s.beforeStep = (inp, s1) → inp.quit = false → inp.presentOk = true →
    s.pc.toNat ≤ 4094 → wordAtPc s = 0xF#4 ++ field4 x ++ 0x0A#8 → (∀ k : Reg, inp.keys[k] = false) →
    ∃ t, step s = .next t ∧ t = { s1 with frameOut := some s.fb } ∧ t.status = .running ∧ t.pc = s.pc ∧
      wordAtPc t = wordAtPc s

/-! ### The scheduler's time -/

/-- R290: a tick decrements both timers with a floor of 0 and changes nothing else. -/
def Obligations.TickDecrementsBothTimers : Prop :=
  ∀ s : State,
    (s.dt.toNat > 0 → s.tick.dt.toNat = s.dt.toNat - 1) ∧ (s.dt.toNat = 0 → s.tick.dt.toNat = 0) ∧
    (s.st.toNat > 0 → s.tick.st.toNat = s.st.toNat - 1) ∧ (s.st.toNat = 0 → s.tick.st.toNat = 0) ∧
    s.tick = { s with dt := s.tick.dt, st := s.tick.st }

/-- R296, whose counts the spec derives: stage (c) is the loop "while ACC >= TICK: tick; ACC <- ACC - TICK"; what is left is
in [0, TICK), and an ACC below TICK + 3 s holds at most 180 ticks. -/
def Obligations.StageCIsTheCatchUpLoop : Prop :=
  ∀ s : State, 0 ≤ s.acc →
    (s.acc < 1 / 60 → s.catchUp = s) ∧
    (1 / 60 ≤ s.acc → s.catchUp = State.catchUp { s.tick with acc := s.acc - 1 / 60 }) ∧
    AccBounds s.catchUp ∧ s.catchUp.acc = s.acc - (⌊s.acc * 60⌋₊ : Rat) / 60 ∧
    s.catchUp.dt.toNat = s.dt.toNat - ⌊s.acc * 60⌋₊ ∧
    (s.acc < 1 / 60 + 3 → ⌊s.acc * 60⌋₊ ≤ 180)

/-- R291 (the spec's decision D26; the list of calls is the model's own, log entry 12): in an iteration the ticks call
`stop_beep` when they take ST to 0 and nothing otherwise; the step calls the adapter only when it executes Fx18, `start_beep` on
a rise and `stop_beep` on a fall; and a single tick calls `stop_beep` exactly when it takes ST from 1 to 0. -/
def Obligations.BeepCallsFollowTheSoundTimer : Prop :=
  (∀ (s s1 : State) (inp : HostInput), s.beforeStep = (inp, s1) →
    (inp.quit = true ∨ 4094 < s.pc.toNat ∨ (∀ x, decode (wordAtPc s) ≠ .ok (.ldStVx x)) →
      s.beepCalls = if s.st ≠ 0 ∧ s1.st = 0 then [.stop] else []) ∧
    ∀ x, inp.quit = false → s.pc.toNat ≤ 4094 → decode (wordAtPc s) = .ok (.ldStVx x) →
      s.beepCalls = (if s.st ≠ 0 ∧ s1.st = 0 then [.stop] else []) ++
        (if s1.st = 0 ∧ s.getV x ≠ 0 then [.start] else if s1.st ≠ 0 ∧ s.getV x = 0 then [.stop] else [])) ∧
  ∀ s : State, beepEdge s.st s.tick.st = if s.st = 1 then [.stop] else []

/-- R294, R295 (the spec's decision D22), R296 and R301, which it derives: the timers take floor(60 S) ticks, where S is the sum
of the capped deltas, however the time is split. The first clause says so of stages (a) to (c) for any deltas; the second of
every run of whole steps in which no Fx15 and no Fx18 executes, whatever else does. -/
def Obligations.TicksDependOnTheSumOfTheDeltasOnly : Prop :=
  ∀ (s : State) (deltas : List Rat), s.acc = 0 →
    ((∀ d ∈ deltas, 0 ≤ d) → SpentOn s (deltas.foldl State.passTime s) (deltas.map (fun d => min d 3)).sum) ∧
    ∀ t, TimedRun deltas s t → SpentOn s t (deltas.map (fun d => min d 3)).sum

/-! ### Memory -/

/-- R64: a byte written at any address of the array reads back; at 4096 and above both accesses return OutOfBoundsAccess. -/
def Obligations.MemoryRoundTripOfOneByte : Prop :=
  ∀ (s : State) (a : Nat) (v : Byte),
    (a < 4096 → ∃ t, s.memWrite a [v] = .ok t ∧ t.memRead a 1 = .ok [v]) ∧
    (4096 ≤ a → s.memWrite a [v] = .error ⟨.outOfBoundsAccess, .range a 1⟩ ∧
      s.memRead a 1 = .error ⟨.outOfBoundsAccess, .range a 1⟩)

/-- R61, R62, R63 (the spec's decisions D7, D14): an access of n bytes at a succeeds exactly when a + n is at most 4096, n = 0
included; a read gives the n bytes from a upwards; a write puts byte k at a + k and leaves every other byte and all other
state. -/
def Obligations.MemoryAccessIsCheckedAsAWhole : Prop :=
  ∀ (s : State) (a n : Nat) (bs : List Byte),
    (a + n ≤ 4096 → ∃ read, s.memRead a n = .ok read ∧ read.length = n ∧
      ∀ (k : Nat) (h : k < read.length), read[k] = s.readByte (a + k)) ∧
    (a + n > 4096 → s.memRead a n = .error ⟨.outOfBoundsAccess, .range a n⟩) ∧
    (a + bs.length ≤ 4096 → ∃ t, s.memWrite a bs = .ok t ∧ t = { s with mem := t.mem } ∧
      (∀ (k : Nat) (h : k < bs.length), t.readByte (a + k) = bs[k]) ∧
      ∀ a', a' < a ∨ a + bs.length ≤ a' → t.readByte a' = s.readByte a') ∧
    (a + bs.length > 4096 → s.memWrite a bs = .error ⟨.outOfBoundsAccess, .range a bs.length⟩)

/-- R76 (the spec's decision D30): a fetch reads its two bytes from memory as it stands, so it sees every earlier write, of one
byte or more and wherever the block lies: a byte inside the block written is the byte written, a byte outside it is the byte
there before. -/
def Obligations.FetchSeesEveryEarlierWrite : Prop :=
  (∀ u : State, u.pc.toNat ≤ 4094 → u.fetch = .ok (u.readByte u.pc.toNat ++ u.readByte (u.pc.toNat + 1))) ∧
  ∀ (s t : State) (a : Nat) (bs : List Byte) (pc : Word), s.memWrite a bs = .ok t → pc.toNat ≤ 4094 →
    State.fetch { t with pc := pc } =
      .ok (byteAfterWrite s a bs pc.toNat ++ byteAfterWrite s a bs (pc.toNat + 1))

/-! ### Construction -/

/-- R334, R333 (the spec's decisions D2, D3): the state after construction, whatever the parameters; and the defaults of
STACK_LIMIT and INSTR_HZ (R8; D6, D37), with which the state after reset is constructed. -/
def Obligations.ResetStateHoldsTheStatedValues : Prop :=
  (∀ p : Params, let s := State.initial p
    (∀ x, s.getV x = 0) ∧ s.i = 0 ∧ s.dt = 0 ∧ s.st = 0 ∧ s.stack = [] ∧ (∀ r c, s.fb.pixel r c = false) ∧
      (∀ k : Reg, s.keys[k] = false) ∧ s.acc = 0 ∧ s.status = .running ∧ s.beepOut = false ∧ s.pc = 0x200 ∧
      s.params = p) ∧
  State.reset = State.initial State.reset.params ∧
  State.reset.params.stackLimit = 16 ∧ State.reset.params.instrHz = 500

/-- R331, R66, R8 (the spec's decisions D4, D5): construction pre-loads bytes 0 to 79 with the parameter FONT_TABLE, every other
byte being 0; and the default of FONT_TABLE, whose bytes the spec takes from general knowledge (log entry 9). -/
def Obligations.ResetMemoryHoldsTheFontThenZeros : Prop :=
  (∀ (p : Params) (a : Nat) (h : a < 80), (State.initial p).readByte a = p.fontTable[a]) ∧
  (∀ (p : Params) (a : Nat), 80 ≤ a → (State.initial p).readByte a = 0) ∧
  (List.range 80).map State.reset.readByte =
    [0xF0, 0x90, 0x90, 0x90, 0xF0, 0x20, 0x60, 0x20, 0x20, 0x70, 0xF0, 0x10, 0xF0, 0x80, 0xF0, 0xF0, 0x10, 0xF0, 0x10, 0xF0,
     0x90, 0x90, 0xF0, 0x10, 0x10, 0xF0, 0x80, 0xF0, 0x10, 0xF0, 0xF0, 0x80, 0xF0, 0x90, 0xF0, 0xF0, 0x10, 0x20, 0x40, 0x40,
     0xF0, 0x90, 0xF0, 0x90, 0xF0, 0xF0, 0x90, 0xF0, 0x10, 0xF0, 0xF0, 0x90, 0xF0, 0x90, 0x90, 0xE0, 0x90, 0xE0, 0x90, 0xE0,
     0xF0, 0x80, 0x80, 0x80, 0xF0, 0xE0, 0x90, 0x90, 0x90, 0xE0, 0xF0, 0x80, 0xF0, 0x80, 0xF0, 0xF0, 0x80, 0xF0, 0x80, 0x80]

/-- R332 (the spec's decision D27): a ROM of at most 3584 bytes, the empty one included, is placed byte for byte at 0x200 in
the state of R334 and leaves everything else; a longer one ends the construction with OutOfBoundsAccess. -/
def Obligations.ConstructionLoadsTheRomAt0x200 : Prop :=
  ∀ (p : Params) (rom : List Byte),
    (rom.length ≤ 3584 → ∃ s, State.construct p none rom = .ok s ∧ s = { State.initial p with mem := s.mem } ∧
      (∀ (k : Nat) (h : k < rom.length), s.readByte (0x200 + k) = rom[k]) ∧
      ∀ a, a < 0x200 ∨ 0x200 + rom.length ≤ a → s.readByte a = (State.initial p).readByte a) ∧
    (rom.length > 3584 →
      State.construct p none rom = .error ⟨.outOfBoundsAccess, none, none, .range 0x200 rom.length⟩)

/-- R306 (the failure is an argument of the construction: log entry 14): an adapter that fails to construct ends the
construction with HostAdapterError and no pc, whatever the parameters and the ROM, and no state is defined. -/
def Obligations.AdapterFailureAbortsConstruction : Prop :=
  ∀ (p : Params) (a : Adapter) (rom : List Byte),
    State.construct p (some a) rom = .error ⟨.hostAdapterError, none, none, .adapter a⟩

/-! ### What the ports carry -/

/-- R281 (the spec's decision D20): the codes of the fault kinds; R49 (decision D29): bit r * 64 + c of `frame_out` is
FB[r][c]; R50, R51: `beep_out` is ST ≠ 0 and `status_out` is STATUS. -/
def Obligations.PortsCarryTheStatedCodes : Prop :=
  (faultCode .outOfBoundsAccess = 1 ∧ faultCode .integerOverflow = 2 ∧ faultCode .stackUnderflow = 3 ∧
    faultCode .stackOverflow = 4 ∧ faultCode .unrecognizedOpcode = 5 ∧ faultCode .hostAdapterError = 6) ∧
  (∀ (fb : FrameBuffer) (r : Fin 32) (c : Fin 64) (k : Fin 2048), k.val = r.val * 64 + c.val →
    fb.frameBit k = fb.pixel r c) ∧
  ∀ s : State, (s.beepOut = true ↔ s.st ≠ 0) ∧ s.statusOut = s.status
end

