-- ==== Sys2Proof/Laws/Blit.lean ====
section
/-! SUPPORT. The laws of the frame buffer: reading a pixel after flipping or clearing. -/

namespace Sys2Proof.Machine

/-- A flipped pixel is inverted, every other pixel is as before. -/
theorem FrameBuffer.pixel_flip (fb : FrameBuffer) (r r' : Fin 32) (c c' : Fin 64) :
    (fb.flip r c).pixel r' c' = (fb.pixel r' c' ^^ decide (r' = r ∧ c' = c)) := by
  unfold FrameBuffer.pixel FrameBuffer.flip
  by_cases hr : r' = r
  · subst hr
    rw [show (fb.set r' (fb[r'] ^^^ (1#64 <<< c.val)))[r'] = fb[r'] ^^^ (1#64 <<< c.val) by simp,
      BitVec.getLsbD_xor]
    congr 1
    by_cases hc : c' = c
    · subst hc
      simp
    · have hv : c'.val ≠ c.val := fun e => hc (Fin.ext e)
      by_cases hlt : c'.val < c.val
      · simp [hc, hlt]
      · have : c'.val - c.val ≠ 0 := by omega
        simp [hc, this]
  · have : r.val ≠ r'.val := fun e => hr (Fin.ext e.symm)
    simp [hr, Vector.getElem_set_ne _ _ this]

@[simp] theorem FrameBuffer.pixel_cleared (r : Fin 32) (c : Fin 64) : FrameBuffer.cleared.pixel r c = false := by
  simp [FrameBuffer.pixel, FrameBuffer.cleared]

/-- Frame buffers that show the same pixels are equal. -/
theorem FrameBuffer.ext_pixel (a b : FrameBuffer) (h : ∀ r c, a.pixel r c = b.pixel r c) : a = b := by
  apply Vector.ext
  intro r hr
  apply BitVec.eq_of_getLsbD_eq
  intro c hc
  exact h ⟨r, hr⟩ ⟨c, hc⟩

@[simp] theorem blitPixel_fst (p : BlitState) (r : Fin 32) (c : Fin 64) : (blitPixel p r c).1 = p.1.flip r c := rfl

@[simp] theorem blitPixel_snd (p : BlitState) (r : Fin 32) (c : Fin 64) :
    (blitPixel p r c).2 = (p.2 || p.1.pixel r c) := rfl

end Sys2Proof.Machine
end

