-- ==== Sys2Proof/Laws/State.lean ====
section
/-! SUPPORT. What each named update does to each field of the state: one lemma per field and update. A proof cites these
(they are in the simp set) and never unfolds a record update. -/

namespace Sys2Proof.Machine

variable (s : State)

/-! ### setV -/

@[simp] theorem State.setV_params (x : Reg) (b : Byte) : (s.setV x b).params = s.params := rfl
@[simp] theorem State.setV_v (x : Reg) (b : Byte) : (s.setV x b).v = s.v.set x b := rfl
@[simp] theorem State.setV_i (x : Reg) (b : Byte) : (s.setV x b).i = s.i := rfl
@[simp] theorem State.setV_pc (x : Reg) (b : Byte) : (s.setV x b).pc = s.pc := rfl
@[simp] theorem State.setV_stack (x : Reg) (b : Byte) : (s.setV x b).stack = s.stack := rfl
@[simp] theorem State.setV_dt (x : Reg) (b : Byte) : (s.setV x b).dt = s.dt := rfl
@[simp] theorem State.setV_st (x : Reg) (b : Byte) : (s.setV x b).st = s.st := rfl
@[simp] theorem State.setV_fb (x : Reg) (b : Byte) : (s.setV x b).fb = s.fb := rfl
@[simp] theorem State.setV_keys (x : Reg) (b : Byte) : (s.setV x b).keys = s.keys := rfl
@[simp] theorem State.setV_mem (x : Reg) (b : Byte) : (s.setV x b).mem = s.mem := rfl
@[simp] theorem State.setV_acc (x : Reg) (b : Byte) : (s.setV x b).acc = s.acc := rfl
@[simp] theorem State.setV_status (x : Reg) (b : Byte) : (s.setV x b).status = s.status := rfl
@[simp] theorem State.setV_frameOut (x : Reg) (b : Byte) : (s.setV x b).frameOut = s.frameOut := rfl
@[simp] theorem State.setV_hostInputs (x : Reg) (b : Byte) : (s.setV x b).hostInputs = s.hostInputs := rfl
@[simp] theorem State.setV_iterations (x : Reg) (b : Byte) : (s.setV x b).iterations = s.iterations := rfl
@[simp] theorem State.setV_randIn (x : Reg) (b : Byte) : (s.setV x b).randIn = s.randIn := rfl
@[simp] theorem State.setV_draws (x : Reg) (b : Byte) : (s.setV x b).draws = s.draws := rfl
@[simp] theorem State.setV_readByte (x : Reg) (b : Byte) (a : Nat) : (s.setV x b).readByte a = s.readByte a := rfl

/-! ### setI -/

@[simp] theorem State.setI_params (w : Word) : (s.setI w).params = s.params := rfl
@[simp] theorem State.setI_v (w : Word) : (s.setI w).v = s.v := rfl
@[simp] theorem State.setI_i (w : Word) : (s.setI w).i = w := rfl
@[simp] theorem State.setI_pc (w : Word) : (s.setI w).pc = s.pc := rfl
@[simp] theorem State.setI_stack (w : Word) : (s.setI w).stack = s.stack := rfl
@[simp] theorem State.setI_dt (w : Word) : (s.setI w).dt = s.dt := rfl
@[simp] theorem State.setI_st (w : Word) : (s.setI w).st = s.st := rfl
@[simp] theorem State.setI_fb (w : Word) : (s.setI w).fb = s.fb := rfl
@[simp] theorem State.setI_keys (w : Word) : (s.setI w).keys = s.keys := rfl
@[simp] theorem State.setI_mem (w : Word) : (s.setI w).mem = s.mem := rfl
@[simp] theorem State.setI_acc (w : Word) : (s.setI w).acc = s.acc := rfl
@[simp] theorem State.setI_status (w : Word) : (s.setI w).status = s.status := rfl
@[simp] theorem State.setI_frameOut (w : Word) : (s.setI w).frameOut = s.frameOut := rfl
@[simp] theorem State.setI_hostInputs (w : Word) : (s.setI w).hostInputs = s.hostInputs := rfl
@[simp] theorem State.setI_iterations (w : Word) : (s.setI w).iterations = s.iterations := rfl
@[simp] theorem State.setI_randIn (w : Word) : (s.setI w).randIn = s.randIn := rfl
@[simp] theorem State.setI_draws (w : Word) : (s.setI w).draws = s.draws := rfl
@[simp] theorem State.setI_getV (w : Word) (r : Reg) : (s.setI w).getV r = s.getV r := rfl
@[simp] theorem State.setI_readByte (w : Word) (a : Nat) : (s.setI w).readByte a = s.readByte a := rfl

/-! ### setDt -/

@[simp] theorem State.setDt_params (b : Byte) : (s.setDt b).params = s.params := rfl
@[simp] theorem State.setDt_v (b : Byte) : (s.setDt b).v = s.v := rfl
@[simp] theorem State.setDt_i (b : Byte) : (s.setDt b).i = s.i := rfl
@[simp] theorem State.setDt_pc (b : Byte) : (s.setDt b).pc = s.pc := rfl
@[simp] theorem State.setDt_stack (b : Byte) : (s.setDt b).stack = s.stack := rfl
@[simp] theorem State.setDt_dt (b : Byte) : (s.setDt b).dt = b := rfl
@[simp] theorem State.setDt_st (b : Byte) : (s.setDt b).st = s.st := rfl
@[simp] theorem State.setDt_fb (b : Byte) : (s.setDt b).fb = s.fb := rfl
@[simp] theorem State.setDt_keys (b : Byte) : (s.setDt b).keys = s.keys := rfl
@[simp] theorem State.setDt_mem (b : Byte) : (s.setDt b).mem = s.mem := rfl
@[simp] theorem State.setDt_acc (b : Byte) : (s.setDt b).acc = s.acc := rfl
@[simp] theorem State.setDt_status (b : Byte) : (s.setDt b).status = s.status := rfl
@[simp] theorem State.setDt_frameOut (b : Byte) : (s.setDt b).frameOut = s.frameOut := rfl
@[simp] theorem State.setDt_hostInputs (b : Byte) : (s.setDt b).hostInputs = s.hostInputs := rfl
@[simp] theorem State.setDt_iterations (b : Byte) : (s.setDt b).iterations = s.iterations := rfl
@[simp] theorem State.setDt_randIn (b : Byte) : (s.setDt b).randIn = s.randIn := rfl
@[simp] theorem State.setDt_draws (b : Byte) : (s.setDt b).draws = s.draws := rfl
@[simp] theorem State.setDt_getV (b : Byte) (r : Reg) : (s.setDt b).getV r = s.getV r := rfl
@[simp] theorem State.setDt_readByte (b : Byte) (a : Nat) : (s.setDt b).readByte a = s.readByte a := rfl

/-! ### setSt -/

@[simp] theorem State.setSt_params (b : Byte) : (s.setSt b).params = s.params := rfl
@[simp] theorem State.setSt_v (b : Byte) : (s.setSt b).v = s.v := rfl
@[simp] theorem State.setSt_i (b : Byte) : (s.setSt b).i = s.i := rfl
@[simp] theorem State.setSt_pc (b : Byte) : (s.setSt b).pc = s.pc := rfl
@[simp] theorem State.setSt_stack (b : Byte) : (s.setSt b).stack = s.stack := rfl
@[simp] theorem State.setSt_dt (b : Byte) : (s.setSt b).dt = s.dt := rfl
@[simp] theorem State.setSt_st (b : Byte) : (s.setSt b).st = b := rfl
@[simp] theorem State.setSt_fb (b : Byte) : (s.setSt b).fb = s.fb := rfl
@[simp] theorem State.setSt_keys (b : Byte) : (s.setSt b).keys = s.keys := rfl
@[simp] theorem State.setSt_mem (b : Byte) : (s.setSt b).mem = s.mem := rfl
@[simp] theorem State.setSt_acc (b : Byte) : (s.setSt b).acc = s.acc := rfl
@[simp] theorem State.setSt_status (b : Byte) : (s.setSt b).status = s.status := rfl
@[simp] theorem State.setSt_frameOut (b : Byte) : (s.setSt b).frameOut = s.frameOut := rfl
@[simp] theorem State.setSt_hostInputs (b : Byte) : (s.setSt b).hostInputs = s.hostInputs := rfl
@[simp] theorem State.setSt_iterations (b : Byte) : (s.setSt b).iterations = s.iterations := rfl
@[simp] theorem State.setSt_randIn (b : Byte) : (s.setSt b).randIn = s.randIn := rfl
@[simp] theorem State.setSt_draws (b : Byte) : (s.setSt b).draws = s.draws := rfl
@[simp] theorem State.setSt_getV (b : Byte) (r : Reg) : (s.setSt b).getV r = s.getV r := rfl
@[simp] theorem State.setSt_readByte (b : Byte) (a : Nat) : (s.setSt b).readByte a = s.readByte a := rfl

/-! ### setFb -/

@[simp] theorem State.setFb_params (f : FrameBuffer) : (s.setFb f).params = s.params := rfl
@[simp] theorem State.setFb_v (f : FrameBuffer) : (s.setFb f).v = s.v := rfl
@[simp] theorem State.setFb_i (f : FrameBuffer) : (s.setFb f).i = s.i := rfl
@[simp] theorem State.setFb_pc (f : FrameBuffer) : (s.setFb f).pc = s.pc := rfl
@[simp] theorem State.setFb_stack (f : FrameBuffer) : (s.setFb f).stack = s.stack := rfl
@[simp] theorem State.setFb_dt (f : FrameBuffer) : (s.setFb f).dt = s.dt := rfl
@[simp] theorem State.setFb_st (f : FrameBuffer) : (s.setFb f).st = s.st := rfl
@[simp] theorem State.setFb_fb (f : FrameBuffer) : (s.setFb f).fb = f := rfl
@[simp] theorem State.setFb_keys (f : FrameBuffer) : (s.setFb f).keys = s.keys := rfl
@[simp] theorem State.setFb_mem (f : FrameBuffer) : (s.setFb f).mem = s.mem := rfl
@[simp] theorem State.setFb_acc (f : FrameBuffer) : (s.setFb f).acc = s.acc := rfl
@[simp] theorem State.setFb_status (f : FrameBuffer) : (s.setFb f).status = s.status := rfl
@[simp] theorem State.setFb_frameOut (f : FrameBuffer) : (s.setFb f).frameOut = s.frameOut := rfl
@[simp] theorem State.setFb_hostInputs (f : FrameBuffer) : (s.setFb f).hostInputs = s.hostInputs := rfl
@[simp] theorem State.setFb_iterations (f : FrameBuffer) : (s.setFb f).iterations = s.iterations := rfl
@[simp] theorem State.setFb_randIn (f : FrameBuffer) : (s.setFb f).randIn = s.randIn := rfl
@[simp] theorem State.setFb_draws (f : FrameBuffer) : (s.setFb f).draws = s.draws := rfl
@[simp] theorem State.setFb_getV (f : FrameBuffer) (r : Reg) : (s.setFb f).getV r = s.getV r := rfl
@[simp] theorem State.setFb_readByte (f : FrameBuffer) (a : Nat) : (s.setFb f).readByte a = s.readByte a := rfl

/-! ### next -/

@[simp] theorem State.next_params : s.next.params = s.params := rfl
@[simp] theorem State.next_v : s.next.v = s.v := rfl
@[simp] theorem State.next_i : s.next.i = s.i := rfl
@[simp] theorem State.next_pc : s.next.pc = s.pc + 2 := rfl
@[simp] theorem State.next_stack : s.next.stack = s.stack := rfl
@[simp] theorem State.next_dt : s.next.dt = s.dt := rfl
@[simp] theorem State.next_st : s.next.st = s.st := rfl
@[simp] theorem State.next_fb : s.next.fb = s.fb := rfl
@[simp] theorem State.next_keys : s.next.keys = s.keys := rfl
@[simp] theorem State.next_mem : s.next.mem = s.mem := rfl
@[simp] theorem State.next_acc : s.next.acc = s.acc := rfl
@[simp] theorem State.next_status : s.next.status = s.status := rfl
@[simp] theorem State.next_frameOut : s.next.frameOut = s.frameOut := rfl
@[simp] theorem State.next_hostInputs : s.next.hostInputs = s.hostInputs := rfl
@[simp] theorem State.next_iterations : s.next.iterations = s.iterations := rfl
@[simp] theorem State.next_randIn : s.next.randIn = s.randIn := rfl
@[simp] theorem State.next_draws : s.next.draws = s.draws := rfl
@[simp] theorem State.next_getV (r : Reg) : s.next.getV r = s.getV r := rfl
@[simp] theorem State.next_readByte (a : Nat) : s.next.readByte a = s.readByte a := rfl

/-! ### skip -/

@[simp] theorem State.skip_params (c : Bool) : (s.skip c).params = s.params := rfl
@[simp] theorem State.skip_v (c : Bool) : (s.skip c).v = s.v := rfl
@[simp] theorem State.skip_i (c : Bool) : (s.skip c).i = s.i := rfl
@[simp] theorem State.skip_pc (c : Bool) : (s.skip c).pc = if c then s.pc + 4 else s.pc + 2 := rfl
@[simp] theorem State.skip_stack (c : Bool) : (s.skip c).stack = s.stack := rfl
@[simp] theorem State.skip_dt (c : Bool) : (s.skip c).dt = s.dt := rfl
@[simp] theorem State.skip_st (c : Bool) : (s.skip c).st = s.st := rfl
@[simp] theorem State.skip_fb (c : Bool) : (s.skip c).fb = s.fb := rfl
@[simp] theorem State.skip_keys (c : Bool) : (s.skip c).keys = s.keys := rfl
@[simp] theorem State.skip_mem (c : Bool) : (s.skip c).mem = s.mem := rfl
@[simp] theorem State.skip_acc (c : Bool) : (s.skip c).acc = s.acc := rfl
@[simp] theorem State.skip_status (c : Bool) : (s.skip c).status = s.status := rfl
@[simp] theorem State.skip_frameOut (c : Bool) : (s.skip c).frameOut = s.frameOut := rfl
@[simp] theorem State.skip_hostInputs (c : Bool) : (s.skip c).hostInputs = s.hostInputs := rfl
@[simp] theorem State.skip_iterations (c : Bool) : (s.skip c).iterations = s.iterations := rfl
@[simp] theorem State.skip_randIn (c : Bool) : (s.skip c).randIn = s.randIn := rfl
@[simp] theorem State.skip_draws (c : Bool) : (s.skip c).draws = s.draws := rfl
@[simp] theorem State.skip_getV (c : Bool) (r : Reg) : (s.skip c).getV r = s.getV r := rfl
@[simp] theorem State.skip_readByte (c : Bool) (a : Nat) : (s.skip c).readByte a = s.readByte a := rfl

/-! ### jump -/

@[simp] theorem State.jump_params (t : Word) : (s.jump t).params = s.params := rfl
@[simp] theorem State.jump_v (t : Word) : (s.jump t).v = s.v := rfl
@[simp] theorem State.jump_i (t : Word) : (s.jump t).i = s.i := rfl
@[simp] theorem State.jump_pc (t : Word) : (s.jump t).pc = t := rfl
@[simp] theorem State.jump_stack (t : Word) : (s.jump t).stack = s.stack := rfl
@[simp] theorem State.jump_dt (t : Word) : (s.jump t).dt = s.dt := rfl
@[simp] theorem State.jump_st (t : Word) : (s.jump t).st = s.st := rfl
@[simp] theorem State.jump_fb (t : Word) : (s.jump t).fb = s.fb := rfl
@[simp] theorem State.jump_keys (t : Word) : (s.jump t).keys = s.keys := rfl
@[simp] theorem State.jump_mem (t : Word) : (s.jump t).mem = s.mem := rfl
@[simp] theorem State.jump_acc (t : Word) : (s.jump t).acc = s.acc := rfl
@[simp] theorem State.jump_status (t : Word) : (s.jump t).status = s.status := rfl
@[simp] theorem State.jump_frameOut (t : Word) : (s.jump t).frameOut = s.frameOut := rfl
@[simp] theorem State.jump_hostInputs (t : Word) : (s.jump t).hostInputs = s.hostInputs := rfl
@[simp] theorem State.jump_iterations (t : Word) : (s.jump t).iterations = s.iterations := rfl
@[simp] theorem State.jump_randIn (t : Word) : (s.jump t).randIn = s.randIn := rfl
@[simp] theorem State.jump_draws (t : Word) : (s.jump t).draws = s.draws := rfl
@[simp] theorem State.jump_getV (t : Word) (r : Reg) : (s.jump t).getV r = s.getV r := rfl
@[simp] theorem State.jump_readByte (t : Word) (a : Nat) : (s.jump t).readByte a = s.readByte a := rfl

/-! ### halt -/

@[simp] theorem State.halt_params (f : FaultRecord) : (s.halt f).params = s.params := rfl
@[simp] theorem State.halt_v (f : FaultRecord) : (s.halt f).v = s.v := rfl
@[simp] theorem State.halt_i (f : FaultRecord) : (s.halt f).i = s.i := rfl
@[simp] theorem State.halt_pc (f : FaultRecord) : (s.halt f).pc = s.pc := rfl
@[simp] theorem State.halt_stack (f : FaultRecord) : (s.halt f).stack = s.stack := rfl
@[simp] theorem State.halt_dt (f : FaultRecord) : (s.halt f).dt = s.dt := rfl
@[simp] theorem State.halt_st (f : FaultRecord) : (s.halt f).st = s.st := rfl
@[simp] theorem State.halt_fb (f : FaultRecord) : (s.halt f).fb = s.fb := rfl
@[simp] theorem State.halt_keys (f : FaultRecord) : (s.halt f).keys = s.keys := rfl
@[simp] theorem State.halt_mem (f : FaultRecord) : (s.halt f).mem = s.mem := rfl
@[simp] theorem State.halt_acc (f : FaultRecord) : (s.halt f).acc = s.acc := rfl
@[simp] theorem State.halt_status (f : FaultRecord) : (s.halt f).status = .halted f := rfl
@[simp] theorem State.halt_frameOut (f : FaultRecord) : (s.halt f).frameOut = s.frameOut := rfl
@[simp] theorem State.halt_hostInputs (f : FaultRecord) : (s.halt f).hostInputs = s.hostInputs := rfl
@[simp] theorem State.halt_iterations (f : FaultRecord) : (s.halt f).iterations = s.iterations := rfl
@[simp] theorem State.halt_randIn (f : FaultRecord) : (s.halt f).randIn = s.randIn := rfl
@[simp] theorem State.halt_draws (f : FaultRecord) : (s.halt f).draws = s.draws := rfl
@[simp] theorem State.halt_getV (f : FaultRecord) (r : Reg) : (s.halt f).getV r = s.getV r := rfl
@[simp] theorem State.halt_readByte (f : FaultRecord) (a : Nat) : (s.halt f).readByte a = s.readByte a := rfl

/-! ### haltAt -/

@[simp] theorem State.haltAt_params (w : Word) (e : Raise) : (s.haltAt w e).params = s.params := rfl
@[simp] theorem State.haltAt_v (w : Word) (e : Raise) : (s.haltAt w e).v = s.v := rfl
@[simp] theorem State.haltAt_i (w : Word) (e : Raise) : (s.haltAt w e).i = s.i := rfl
@[simp] theorem State.haltAt_pc (w : Word) (e : Raise) : (s.haltAt w e).pc = s.pc := rfl
@[simp] theorem State.haltAt_stack (w : Word) (e : Raise) : (s.haltAt w e).stack = s.stack := rfl
@[simp] theorem State.haltAt_dt (w : Word) (e : Raise) : (s.haltAt w e).dt = s.dt := rfl
@[simp] theorem State.haltAt_st (w : Word) (e : Raise) : (s.haltAt w e).st = s.st := rfl
@[simp] theorem State.haltAt_fb (w : Word) (e : Raise) : (s.haltAt w e).fb = s.fb := rfl
@[simp] theorem State.haltAt_keys (w : Word) (e : Raise) : (s.haltAt w e).keys = s.keys := rfl
@[simp] theorem State.haltAt_mem (w : Word) (e : Raise) : (s.haltAt w e).mem = s.mem := rfl
@[simp] theorem State.haltAt_acc (w : Word) (e : Raise) : (s.haltAt w e).acc = s.acc := rfl
@[simp] theorem State.haltAt_status (w : Word) (e : Raise) : (s.haltAt w e).status = .halted ⟨e.kind, some s.pc, some w, e.info⟩ := rfl
@[simp] theorem State.haltAt_frameOut (w : Word) (e : Raise) : (s.haltAt w e).frameOut = s.frameOut := rfl
@[simp] theorem State.haltAt_hostInputs (w : Word) (e : Raise) : (s.haltAt w e).hostInputs = s.hostInputs := rfl
@[simp] theorem State.haltAt_iterations (w : Word) (e : Raise) : (s.haltAt w e).iterations = s.iterations := rfl
@[simp] theorem State.haltAt_randIn (w : Word) (e : Raise) : (s.haltAt w e).randIn = s.randIn := rfl
@[simp] theorem State.haltAt_draws (w : Word) (e : Raise) : (s.haltAt w e).draws = s.draws := rfl
@[simp] theorem State.haltAt_getV (w : Word) (e : Raise) (r : Reg) : (s.haltAt w e).getV r = s.getV r := rfl
@[simp] theorem State.haltAt_readByte (w : Word) (e : Raise) (a : Nat) : (s.haltAt w e).readByte a = s.readByte a := rfl

/-! ### advanceI -/

@[simp] theorem State.advanceI_params (x : Reg) : (s.advanceI x).params = s.params := rfl
@[simp] theorem State.advanceI_v (x : Reg) : (s.advanceI x).v = s.v := rfl
@[simp] theorem State.advanceI_i (x : Reg) : (s.advanceI x).i = s.i + BitVec.ofNat 16 (x.val + 1) := rfl
@[simp] theorem State.advanceI_pc (x : Reg) : (s.advanceI x).pc = s.pc := rfl
@[simp] theorem State.advanceI_stack (x : Reg) : (s.advanceI x).stack = s.stack := rfl
@[simp] theorem State.advanceI_dt (x : Reg) : (s.advanceI x).dt = s.dt := rfl
@[simp] theorem State.advanceI_st (x : Reg) : (s.advanceI x).st = s.st := rfl
@[simp] theorem State.advanceI_fb (x : Reg) : (s.advanceI x).fb = s.fb := rfl
@[simp] theorem State.advanceI_keys (x : Reg) : (s.advanceI x).keys = s.keys := rfl
@[simp] theorem State.advanceI_mem (x : Reg) : (s.advanceI x).mem = s.mem := rfl
@[simp] theorem State.advanceI_acc (x : Reg) : (s.advanceI x).acc = s.acc := rfl
@[simp] theorem State.advanceI_status (x : Reg) : (s.advanceI x).status = s.status := rfl
@[simp] theorem State.advanceI_frameOut (x : Reg) : (s.advanceI x).frameOut = s.frameOut := rfl
@[simp] theorem State.advanceI_hostInputs (x : Reg) : (s.advanceI x).hostInputs = s.hostInputs := rfl
@[simp] theorem State.advanceI_iterations (x : Reg) : (s.advanceI x).iterations = s.iterations := rfl
@[simp] theorem State.advanceI_randIn (x : Reg) : (s.advanceI x).randIn = s.randIn := rfl
@[simp] theorem State.advanceI_draws (x : Reg) : (s.advanceI x).draws = s.draws := rfl
@[simp] theorem State.advanceI_getV (x : Reg) (r : Reg) : (s.advanceI x).getV r = s.getV r := rfl
@[simp] theorem State.advanceI_readByte (x : Reg) (a : Nat) : (s.advanceI x).readByte a = s.readByte a := rfl

/-! ### tick -/

@[simp] theorem State.tick_params : s.tick.params = s.params := rfl
@[simp] theorem State.tick_v : s.tick.v = s.v := rfl
@[simp] theorem State.tick_i : s.tick.i = s.i := rfl
@[simp] theorem State.tick_pc : s.tick.pc = s.pc := rfl
@[simp] theorem State.tick_stack : s.tick.stack = s.stack := rfl
@[simp] theorem State.tick_dt : s.tick.dt = countDown s.dt := rfl
@[simp] theorem State.tick_st : s.tick.st = countDown s.st := rfl
@[simp] theorem State.tick_fb : s.tick.fb = s.fb := rfl
@[simp] theorem State.tick_keys : s.tick.keys = s.keys := rfl
@[simp] theorem State.tick_mem : s.tick.mem = s.mem := rfl
@[simp] theorem State.tick_acc : s.tick.acc = s.acc := rfl
@[simp] theorem State.tick_status : s.tick.status = s.status := rfl
@[simp] theorem State.tick_frameOut : s.tick.frameOut = s.frameOut := rfl
@[simp] theorem State.tick_hostInputs : s.tick.hostInputs = s.hostInputs := rfl
@[simp] theorem State.tick_iterations : s.tick.iterations = s.iterations := rfl
@[simp] theorem State.tick_randIn : s.tick.randIn = s.randIn := rfl
@[simp] theorem State.tick_draws : s.tick.draws = s.draws := rfl
@[simp] theorem State.tick_getV (r : Reg) : s.tick.getV r = s.getV r := rfl
@[simp] theorem State.tick_readByte (a : Nat) : s.tick.readByte a = s.readByte a := rfl

/-! ### accumulate -/

@[simp] theorem State.accumulate_params (d : Rat) : (s.accumulate d).params = s.params := rfl
@[simp] theorem State.accumulate_v (d : Rat) : (s.accumulate d).v = s.v := rfl
@[simp] theorem State.accumulate_i (d : Rat) : (s.accumulate d).i = s.i := rfl
@[simp] theorem State.accumulate_pc (d : Rat) : (s.accumulate d).pc = s.pc := rfl
@[simp] theorem State.accumulate_stack (d : Rat) : (s.accumulate d).stack = s.stack := rfl
@[simp] theorem State.accumulate_dt (d : Rat) : (s.accumulate d).dt = s.dt := rfl
@[simp] theorem State.accumulate_st (d : Rat) : (s.accumulate d).st = s.st := rfl
@[simp] theorem State.accumulate_fb (d : Rat) : (s.accumulate d).fb = s.fb := rfl
@[simp] theorem State.accumulate_keys (d : Rat) : (s.accumulate d).keys = s.keys := rfl
@[simp] theorem State.accumulate_mem (d : Rat) : (s.accumulate d).mem = s.mem := rfl
@[simp] theorem State.accumulate_acc (d : Rat) : (s.accumulate d).acc = addSeconds s.acc (capDelta d) := rfl
@[simp] theorem State.accumulate_status (d : Rat) : (s.accumulate d).status = s.status := rfl
@[simp] theorem State.accumulate_frameOut (d : Rat) : (s.accumulate d).frameOut = s.frameOut := rfl
@[simp] theorem State.accumulate_hostInputs (d : Rat) : (s.accumulate d).hostInputs = s.hostInputs := rfl
@[simp] theorem State.accumulate_iterations (d : Rat) : (s.accumulate d).iterations = s.iterations := rfl
@[simp] theorem State.accumulate_randIn (d : Rat) : (s.accumulate d).randIn = s.randIn := rfl
@[simp] theorem State.accumulate_draws (d : Rat) : (s.accumulate d).draws = s.draws := rfl
@[simp] theorem State.accumulate_getV (d : Rat) (r : Reg) : (s.accumulate d).getV r = s.getV r := rfl
@[simp] theorem State.accumulate_readByte (d : Rat) (a : Nat) : (s.accumulate d).readByte a = s.readByte a := rfl

/-! ### latchKeys -/

@[simp] theorem State.latchKeys_params (k : Keys) : (s.latchKeys k).params = s.params := rfl
@[simp] theorem State.latchKeys_v (k : Keys) : (s.latchKeys k).v = s.v := rfl
@[simp] theorem State.latchKeys_i (k : Keys) : (s.latchKeys k).i = s.i := rfl
@[simp] theorem State.latchKeys_pc (k : Keys) : (s.latchKeys k).pc = s.pc := rfl
@[simp] theorem State.latchKeys_stack (k : Keys) : (s.latchKeys k).stack = s.stack := rfl
@[simp] theorem State.latchKeys_dt (k : Keys) : (s.latchKeys k).dt = s.dt := rfl
@[simp] theorem State.latchKeys_st (k : Keys) : (s.latchKeys k).st = s.st := rfl
@[simp] theorem State.latchKeys_fb (k : Keys) : (s.latchKeys k).fb = s.fb := rfl
@[simp] theorem State.latchKeys_keys (k : Keys) : (s.latchKeys k).keys = k := rfl
@[simp] theorem State.latchKeys_mem (k : Keys) : (s.latchKeys k).mem = s.mem := rfl
@[simp] theorem State.latchKeys_acc (k : Keys) : (s.latchKeys k).acc = s.acc := rfl
@[simp] theorem State.latchKeys_status (k : Keys) : (s.latchKeys k).status = s.status := rfl
@[simp] theorem State.latchKeys_frameOut (k : Keys) : (s.latchKeys k).frameOut = s.frameOut := rfl
@[simp] theorem State.latchKeys_hostInputs (k : Keys) : (s.latchKeys k).hostInputs = s.hostInputs := rfl
@[simp] theorem State.latchKeys_iterations (k : Keys) : (s.latchKeys k).iterations = s.iterations := rfl
@[simp] theorem State.latchKeys_randIn (k : Keys) : (s.latchKeys k).randIn = s.randIn := rfl
@[simp] theorem State.latchKeys_draws (k : Keys) : (s.latchKeys k).draws = s.draws := rfl
@[simp] theorem State.latchKeys_getV (k : Keys) (r : Reg) : (s.latchKeys k).getV r = s.getV r := rfl
@[simp] theorem State.latchKeys_readByte (k : Keys) (a : Nat) : (s.latchKeys k).readByte a = s.readByte a := rfl

/-! ### quitNow -/

@[simp] theorem State.quitNow_params : s.quitNow.params = s.params := rfl
@[simp] theorem State.quitNow_v : s.quitNow.v = s.v := rfl
@[simp] theorem State.quitNow_i : s.quitNow.i = s.i := rfl
@[simp] theorem State.quitNow_pc : s.quitNow.pc = s.pc := rfl
@[simp] theorem State.quitNow_stack : s.quitNow.stack = s.stack := rfl
@[simp] theorem State.quitNow_dt : s.quitNow.dt = s.dt := rfl
@[simp] theorem State.quitNow_st : s.quitNow.st = s.st := rfl
@[simp] theorem State.quitNow_fb : s.quitNow.fb = s.fb := rfl
@[simp] theorem State.quitNow_keys : s.quitNow.keys = s.keys := rfl
@[simp] theorem State.quitNow_mem : s.quitNow.mem = s.mem := rfl
@[simp] theorem State.quitNow_acc : s.quitNow.acc = s.acc := rfl
@[simp] theorem State.quitNow_status : s.quitNow.status = .quit := rfl
@[simp] theorem State.quitNow_frameOut : s.quitNow.frameOut = none := rfl
@[simp] theorem State.quitNow_hostInputs : s.quitNow.hostInputs = s.hostInputs := rfl
@[simp] theorem State.quitNow_iterations : s.quitNow.iterations = s.iterations := rfl
@[simp] theorem State.quitNow_randIn : s.quitNow.randIn = s.randIn := rfl
@[simp] theorem State.quitNow_draws : s.quitNow.draws = s.draws := rfl
@[simp] theorem State.quitNow_getV (r : Reg) : s.quitNow.getV r = s.getV r := rfl
@[simp] theorem State.quitNow_readByte (a : Nat) : s.quitNow.readByte a = s.readByte a := rfl

/-! ### Reading a register after writing one -/

/-- A register written reads as the value written, every other register as before. -/
theorem State.getV_setV (x : Reg) (b : Byte) (r : Reg) :
    (s.setV x b).getV r = if r = x then b else s.getV r := by
  unfold State.getV State.setV
  by_cases h : r = x
  · subst h; simp
  · have h' : x.val ≠ r.val := fun e => h (Fin.ext e.symm)
    simp [h, Vector.getElem_set_ne _ _ h']

@[simp] theorem State.getV_setV_same (x : Reg) (b : Byte) : (s.setV x b).getV x = b := by
  simp [State.getV_setV]

theorem State.getV_setV_other (x : Reg) (b : Byte) (r : Reg) (h : r ≠ x) : (s.setV x b).getV r = s.getV r := by
  simp [State.getV_setV, h]

/-- Registers are equal as vectors when they read the same. -/
theorem State.v_ext (t : State) (h : ∀ r, t.getV r = s.getV r) : t.v = s.v := by
  apply Vector.ext
  intro k hk
  exact h ⟨k, hk⟩

end Sys2Proof.Machine
end

