-- ==== Sys2Proof/Laws/Memory.lean ====
section
/-! SUPPORT. The laws of memory (R62 to R64): reading after writing, and that every memory operation keeps the canonical
form `Memory.wf`, under which equal memories are equal lists. -/

namespace Sys2Proof.Machine

variable {font : FontTable}

/-! ### Reading -/

theorem Memory.get_insert_same (a : Nat) (b : Byte) (m : Memory) (h : ∀ c ∈ m, c.1 ≠ a) :
    (Memory.insert a b m).get font a = b := by
  induction m with
  | nil => simp [Memory.insert, Memory.get]
  | cons c rest ih =>
    obtain ⟨c, d⟩ := c
    have hc : c ≠ a := h (c, d) (by simp)
    unfold Memory.insert
    split
    · simp [Memory.get]
    · simp [Memory.get, hc, ih (fun e he => h e (by simp [he]))]

theorem Memory.get_insert_other (a a' : Nat) (b : Byte) (m : Memory) (h : a' ≠ a) :
    (Memory.insert a b m).get font a' = m.get font a' := by
  induction m with
  | nil => simp [Memory.insert, Memory.get, h.symm]
  | cons c rest ih =>
    obtain ⟨c, d⟩ := c
    unfold Memory.insert
    split
    · simp [Memory.get, h.symm]
    · simp [Memory.get, ih]

/-- A cell of the memory without address a is a cell of the memory, and not a's. -/
theorem Memory.mem_unlist (a : Nat) (m : Memory) (c : Host.Cell) (h : c ∈ Memory.unlist a m) : c ∈ m ∧ c.1 ≠ a := by
  induction m with
  | nil => simp [Memory.unlist] at h
  | cons d rest ih =>
    unfold Memory.unlist at h
    split at h
    · exact ⟨List.mem_cons_of_mem _ (ih h).1, (ih h).2⟩
    · rename_i hd
      rcases List.mem_cons.mp h with rfl | h
      · exact ⟨List.mem_cons_self, hd⟩
      · exact ⟨List.mem_cons_of_mem _ (ih h).1, (ih h).2⟩

theorem Memory.get_unlist_same (m : Memory) (a : Nat) : (Memory.unlist a m).get font a = resetByte font a := by
  induction m with
  | nil => rfl
  | cons c rest ih =>
    obtain ⟨c, d⟩ := c
    unfold Memory.unlist
    split
    · exact ih
    · rename_i hc
      simp [Memory.get, hc, ih]

theorem Memory.get_unlist_other (m : Memory) (a a' : Nat) (h : a' ≠ a) : (Memory.unlist a m).get font a' = m.get font a' := by
  induction m with
  | nil => rfl
  | cons c rest ih =>
    obtain ⟨c, d⟩ := c
    unfold Memory.unlist
    split
    · rename_i hc
      have : c ≠ a' := fun e => h (by omega)
      simp [Memory.get, this, ih]
    · simp [Memory.get, ih]

/-- A byte written reads as the value written, every other byte as before, whatever the list. -/
theorem Memory.get_set (m : Memory) (a : Nat) (b : Byte) (a' : Nat) :
    (m.set font a b).get font a' = if a' = a then b else m.get font a' := by
  unfold Memory.set
  by_cases h : a' = a
  · subst h
    rw [if_pos rfl]
    split
    · rename_i hb
      rw [Memory.get_unlist_same, hb]
    · exact Memory.get_insert_same a' b _ (fun c hc => (Memory.mem_unlist a' m c hc).2)
  · rw [if_neg h]
    split
    · exact Memory.get_unlist_other m a a' h
    · rw [Memory.get_insert_other a a' b _ h, Memory.get_unlist_other m a a' h]

/-- A byte outside a block written reads as before. -/
theorem Memory.get_setBytes_outside (bs : List Byte) (m : Memory) (a a' : Nat)
    (h : a' < a ∨ a + bs.length ≤ a') : (m.setBytes font a bs).get font a' = m.get font a' := by
  induction bs generalizing m a with
  | nil => rfl
  | cons b rest ih =>
    simp only [List.length_cons] at h
    simp only [Memory.setBytes]
    rw [ih _ _ (by omega), Memory.get_set, if_neg (by omega)]

/-- Byte k of a block written reads at the k-th address. -/
theorem Memory.get_setBytes_inside (bs : List Byte) (m : Memory) (a k : Nat) (h : k < bs.length) :
    (m.setBytes font a bs).get font (a + k) = bs[k] := by
  induction bs generalizing m a k with
  | nil => simp at h
  | cons b rest ih =>
    simp only [Memory.setBytes]
    cases k with
    | zero =>
      rw [Memory.get_setBytes_outside _ _ _ _ (by omega), Memory.get_set]
      simp
    | succ k =>
      have := ih (m.set font a b) (a + 1) k (by simpa using h)
      simpa [Nat.add_assoc, Nat.add_comm 1 k] using this

@[simp] theorem Memory.length_getBytes (m : Memory) (a n : Nat) : (m.getBytes font a n).length = n := by
  simp [Memory.getBytes]

@[simp] theorem Memory.getElem_getBytes (m : Memory) (a n k : Nat) (h : k < (m.getBytes font a n).length) :
    (m.getBytes font a n)[k] = m.get font (a + k) := by
  simp [Memory.getBytes]

/-! ### The canonical form -/

theorem Memory.mem_insert (a : Nat) (b : Byte) (m : Memory) (c : Host.Cell) (h : c ∈ Memory.insert a b m) :
    c = (a, b) ∨ c ∈ m := by
  induction m with
  | nil => simpa [Memory.insert] using h
  | cons d rest ih =>
    unfold Memory.insert at h
    split at h
    · simpa using h
    · rcases List.mem_cons.mp h with h | h
      · exact .inr (by simp [h])
      · rcases ih h with h | h
        · exact .inl h
        · exact .inr (by simp [h])

theorem Memory.pairwise_insert (a : Nat) (b : Byte) (m : Memory) (hs : m.Pairwise (fun c d => c.1 < d.1))
    (ha : ∀ c ∈ m, c.1 ≠ a) : (Memory.insert a b m).Pairwise (fun c d => c.1 < d.1) := by
  induction m with
  | nil => simp [Memory.insert]
  | cons c rest ih =>
    obtain ⟨c, d⟩ := c
    have hc : c ≠ a := ha (c, d) (by simp)
    rw [List.pairwise_cons] at hs
    unfold Memory.insert
    split
    · rename_i hlt
      refine List.pairwise_cons.mpr ⟨?_, List.pairwise_cons.mpr hs⟩
      intro e he
      rcases List.mem_cons.mp he with rfl | he
      · exact hlt
      · exact lt_trans hlt (hs.1 e he)
    · rename_i hlt
      refine List.pairwise_cons.mpr ⟨?_, ih hs.2 (fun e he => ha e (by simp [he]))⟩
      intro e he
      rcases Memory.mem_insert a b rest e he with rfl | he
      · show c < a; omega
      · exact hs.1 e he

theorem Memory.pairwise_unlist (a : Nat) (m : Memory) (hs : m.Pairwise (fun c d => c.1 < d.1)) :
    (Memory.unlist a m).Pairwise (fun c d => c.1 < d.1) := by
  induction m with
  | nil => exact hs
  | cons c rest ih =>
    rw [List.pairwise_cons] at hs
    unfold Memory.unlist
    split
    · exact ih hs.2
    · exact List.pairwise_cons.mpr ⟨fun e he => hs.1 e (Memory.mem_unlist a rest e he).1, ih hs.2⟩

theorem Memory.wf_set (m : Memory) (a : Nat) (b : Byte) (h : m.wf font) (ha : a < memSize) : (m.set font a b).wf font := by
  have hs := Memory.pairwise_unlist a m h.1
  have hm : ∀ c ∈ Memory.unlist a m, c.1 < memSize ∧ c.2 ≠ resetByte font c.1 := fun c hc =>
    h.2 c (Memory.mem_unlist a m c hc).1
  unfold Memory.set
  split
  · exact ⟨hs, hm⟩
  · rename_i hb
    refine ⟨Memory.pairwise_insert a b _ hs (fun c hc => (Memory.mem_unlist a m c hc).2), ?_⟩
    intro c hc
    rcases Memory.mem_insert a b _ c hc with rfl | hc
    · exact ⟨ha, hb⟩
    · exact hm c hc

theorem Memory.wf_setBytes (bs : List Byte) (m : Memory) (a : Nat) (h : m.wf font) (ha : a + bs.length ≤ memSize) :
    (m.setBytes font a bs).wf font := by
  induction bs generalizing m a with
  | nil => exact h
  | cons b rest ih =>
    simp only [List.length_cons] at ha
    exact ih _ _ (Memory.wf_set m a b h (by omega)) (by omega)

theorem Memory.wf_nil : Memory.wf font [] := ⟨List.Pairwise.nil, by simp⟩

theorem Memory.get_of_not_listed (m : Memory) (a : Nat) (h : ∀ c ∈ m, c.1 ≠ a) : m.get font a = resetByte font a := by
  induction m with
  | nil => rfl
  | cons c rest ih =>
    obtain ⟨c, d⟩ := c
    have hc : c ≠ a := h (c, d) (by simp)
    simp [Memory.get, hc, ih (fun e he => h e (by simp [he]))]

end Sys2Proof.Machine
end

