-- ==== Sys2Proof/Laws/Ops.lean ====
section
/-! SUPPORT. For each shared operation, once, everything it can do. Proofs about instructions cite these and do not unfold
the operations. -/

namespace Sys2Proof.Machine

variable (s : State)

/-! ### Memory -/

theorem State.memRead_ok (a n : Nat) (h : a + n ≤ memSize) : s.memRead a n = .ok (s.mem.getBytes s.params.fontTable a n) := by
  simp [State.memRead, inBounds, h]

theorem State.memRead_error (a n : Nat) (h : memSize < a + n) :
    s.memRead a n = .error ⟨.outOfBoundsAccess, .range a n⟩ := by
  have : ¬ a + n ≤ memSize := by omega
  simp [State.memRead, inBounds, this, outOfBounds]

theorem State.memWrite_ok (a : Nat) (bs : List Byte) (h : a + bs.length ≤ memSize) :
    s.memWrite a bs = .ok { s with mem := s.mem.setBytes s.params.fontTable a bs } := by
  simp [State.memWrite, inBounds, h]

theorem State.memWrite_error (a : Nat) (bs : List Byte) (h : memSize < a + bs.length) :
    s.memWrite a bs = .error ⟨.outOfBoundsAccess, .range a bs.length⟩ := by
  have : ¬ a + bs.length ≤ memSize := by omega
  simp [State.memWrite, inBounds, this, outOfBounds]

/-! ### The end of an instruction -/

@[simp] theorem State.commit_ok (w : Word) (t : State) : s.commit w (.ok t) = .next t := rfl

@[simp] theorem State.commit_error (w : Word) (r : Raise) : s.commit w (.error r) = .next (s.haltAt w r) := rfl

/-- What the end of an instruction can be: its own state, or the halted state of its fault. -/
theorem State.commit_cases (w : Word) (e : Except Raise State) (t : State) (h : s.commit w e = .next t) :
    e = .ok t ∨ ∃ r, e = .error r ∧ t = s.haltAt w r := by
  cases e with
  | ok u => left; simpa using h
  | error r => right; exact ⟨r, rfl, by simpa using h.symm⟩

@[simp] theorem except_map_ok {α β ε : Type} (f : α → β) (a : α) :
    Except.map f (Except.ok a : Except ε α) = .ok (f a) := rfl

@[simp] theorem except_map_error {α β ε : Type} (f : α → β) (e : ε) :
    Except.map f (Except.error e : Except ε α) = .error e := rfl

/-! ### The call stack -/

theorem State.push_ok (w : Word) (h : s.stack.length < s.params.stackLimit) :
    s.push w = .ok { s with stack := s.stack ++ [w] } := by
  simp [State.push, State.sp, h]

theorem State.push_error (w : Word) (h : s.params.stackLimit ≤ s.stack.length) :
    s.push w = .error ⟨.stackOverflow, .depth s.stack.length⟩ := by
  have : ¬ s.stack.length < s.params.stackLimit := by omega
  simp [State.push, State.sp, this]

theorem State.pop_ok (below : List Word) (top : Word) (h : s.stack = below ++ [top]) :
    s.pop = .ok (top, { s with stack := below }) := by
  simp [State.pop, h]

theorem State.pop_error (h : s.stack = []) : s.pop = .error ⟨.stackUnderflow, .depth 0⟩ := by
  simp [State.pop, h]

/-! ### Keys and the random draw -/

theorem State.keyPressed_ok (v : Byte) (h : v.toNat < 16) : s.keyPressed v = .ok s.keys[v.toNat] := by
  simp [State.keyPressed, h]

theorem State.keyPressed_error (v : Byte) (h : 16 ≤ v.toNat) :
    s.keyPressed v = .error ⟨.outOfBoundsAccess, .key v⟩ := by
  have : ¬ v.toNat < 16 := by omega
  simp [State.keyPressed, this]

theorem leastPressed_none (keys : Keys) : leastPressed keys = none ↔ ∀ k : Reg, keys[k] = false := by
  simp [leastPressed]

/-- A draw changes the draw's own two fields and no other. -/
theorem State.draw_frame : s.draw.2 = { s with randIn := s.draw.2.randIn, draws := s.draw.2.draws } := by
  unfold State.draw
  split <;> rfl

theorem State.draw_lined_up (b : Byte) (rest : List Byte) (h : s.randIn = b :: rest) :
    s.draw = (b, { s with randIn := rest, draws := s.draws + 1 }) := by
  simp [State.draw, h]

theorem State.draw_free (h : s.randIn = []) :
    s.draw = (Config.randomByte s.draws, { s with draws := s.draws + 1 }) := by
  simp [State.draw, h]

/-! ### Register blocks -/

@[simp] theorem State.length_regBlock (x : Reg) : (s.regBlock x).length = x.val + 1 := by
  have := x.isLt
  simp [State.regBlock]

theorem State.getElem_regBlock (x : Reg) (k : Nat) (h : k < (s.regBlock x).length) :
    (s.regBlock x)[k] = s.getV ⟨k, by simp at h; have := x.isLt; omega⟩ := by
  simp [State.regBlock, State.getV]

/-- Loading a block changes V and nothing else. -/
theorem State.loadRegs_frame (bs : List Byte) (k : Nat) : s.loadRegs k bs = { s with v := (s.loadRegs k bs).v } := by
  induction bs generalizing s k with
  | nil => rfl
  | cons b rest ih =>
    simp only [State.loadRegs]
    split
    · rw [ih]; rfl
    · rw [ih]

/-- The registers after loading a block from V[k] upwards: byte r - k inside the block, as before outside. -/
theorem State.getV_loadRegs (bs : List Byte) (k : Nat) (r : Reg) :
    (s.loadRegs k bs).getV r =
      if h : k ≤ r.val ∧ r.val - k < bs.length then bs[r.val - k] else s.getV r := by
  induction bs generalizing s k with
  | nil => simp [State.loadRegs]
  | cons b rest ih =>
    simp only [State.loadRegs]
    rw [ih]
    by_cases hk : k < 16
    · rw [dif_pos hk]
      by_cases hr : r.val = k
      · have hrk : r = ⟨k, hk⟩ := Fin.ext hr
        rw [dif_neg (by omega), dif_pos (by simp; omega)]
        subst hrk
        simp
      · by_cases hlt : k < r.val
        · have e : r.val - k = (r.val - (k + 1)) + 1 := by omega
          by_cases hin : r.val - (k + 1) < rest.length
          · rw [dif_pos ⟨by omega, hin⟩, dif_pos ⟨by omega, by simp; omega⟩]
            simp [e]
          · rw [dif_neg (by omega), dif_neg (by simp; omega)]
            exact s.getV_setV_other _ _ _ (fun h => hr (congrArg Fin.val h))
        · rw [dif_neg (by omega), dif_neg (by omega)]
          exact s.getV_setV_other _ _ _ (fun h => hr (congrArg Fin.val h))
    · have := r.isLt
      rw [dif_neg hk, dif_neg (by omega), dif_neg (by omega)]

end Sys2Proof.Machine
end

