-- ==== Sys2Proof/Laws/Exec.lean ====
section
/-! SUPPORT. What each instruction can do, once: it takes its fault and changes nothing else, or it changes exactly the
fields named here. Proofs over all instructions cite `exec_effect` and do not unfold the meanings. -/

namespace Sys2Proof.Machine

/-- A mapped result that is a value comes from a value. -/
theorem except_map_eq_ok {α : Type} {e : Except Raise α} {f : α → State} {u : State} (h : e.map f = .ok u) :
    ∃ a, e = .ok a ∧ f a = u := by
  cases e with
  | ok a => exact ⟨a, rfl, by simpa using h⟩
  | error r => simp at h

/-- A skip moves PC by 2 or by 4 and changes nothing else. -/
theorem State.skip_pc_cases (s : State) (c : Bool) : (s.skip c).pc = s.pc + 2 ∨ (s.skip c).pc = s.pc + 4 := by
  cases c
  · exact .inl rfl
  · exact .inr rfl

/-- A write that succeeds fits in the array and changes the bytes written. -/
theorem State.memWrite_eq_ok (s t : State) (a : Nat) (bs : List Byte) (h : s.memWrite a bs = .ok t) :
    a + bs.length ≤ memSize ∧ t = { s with mem := s.mem.setBytes s.params.fontTable a bs } := by
  by_cases hb : a + bs.length ≤ memSize
  · rw [s.memWrite_ok a bs hb] at h
    exact ⟨hb, by simpa using h.symm⟩
  · rw [s.memWrite_error a bs (by omega)] at h
    simp at h

/-- A push that succeeds had room and adds the top entry. -/
theorem State.push_eq_ok (s t : State) (w : Word) (h : s.push w = .ok t) :
    s.stack.length < s.params.stackLimit ∧ t = { s with stack := s.stack ++ [w] } := by
  by_cases hb : s.stack.length < s.params.stackLimit
  · rw [s.push_ok w hb] at h
    exact ⟨hb, by simpa using h.symm⟩
  · rw [s.push_error w (by omega)] at h
    simp at h

/-- A pop that succeeds takes the top entry. -/
theorem State.pop_eq_ok (s t : State) (top : Word) (h : s.pop = .ok (top, t)) :
    ∃ below, s.stack = below ++ [top] ∧ t = { s with stack := below } := by
  by_cases hne : s.stack = []
  · rw [s.pop_error hne] at h
    simp at h
  · have hs := (List.dropLast_append_getLast hne).symm
    rw [s.pop_ok _ _ hs] at h
    simp only [Except.ok.injEq, Prod.mk.injEq] at h
    obtain ⟨rfl, rfl⟩ := h
    exact ⟨_, hs, rfl⟩

/-- What one instruction that does not fault changes, by the instruction. -/
def Effect (i : Instr) (s t : State) : Prop :=
  match i with
  | .ldI _ | .addI _ | .ldF _ => t = { s with i := t.i, pc := s.pc + 2 }
  | .ldMemVx x =>
    s.dataAddress + (x.val + 1) ≤ memSize ∧
      t = { s with i := t.i, mem := s.mem.setBytes s.params.fontTable s.dataAddress (s.regBlock x), pc := s.pc + 2 }
  | .ldB x =>
    s.dataAddress + 3 ≤ memSize ∧
      t = { s with mem := s.mem.setBytes s.params.fontTable s.dataAddress (bcdDigits (s.getV x)), pc := s.pc + 2 }
  | .ldVxMem _ => t = { s with i := t.i, v := t.v, pc := s.pc + 2 }
  | .ret => ∃ below top, s.stack = below ++ [top] ∧ t = { s with stack := below, pc := top }
  | .call nnn => s.stack.length < s.params.stackLimit ∧ t = { s with stack := s.stack ++ [s.pc + 2], pc := zext16 nnn }
  | .ldDtVx x => t = { s with dt := s.getV x, pc := s.pc + 2 }
  | .ldStVx x => t = { s with st := s.getV x, pc := s.pc + 2 }
  | .cls => t = { s with fb := FrameBuffer.cleared, pc := s.pc + 2 }
  | .drw _ _ _ => t = { s with fb := t.fb, v := t.v, pc := s.pc + 2 }
  | .rnd _ _ => t = { s with v := t.v, pc := s.pc + 2, randIn := t.randIn, draws := t.draws }
  | .jp nnn => t = { s with pc := zext16 nnn }
  | .jpV0 nnn => t = { s with pc := offsetTarget (s.getV 0) nnn }
  | .ldVxK _ => t = s ∨ t = { s with v := t.v, pc := s.pc + 2 }
  | .skp _ | .sknp _ | .seImm _ _ | .sneImm _ _ | .seReg _ _ | .sneReg _ _ =>
    t = { s with pc := t.pc } ∧ (t.pc = s.pc + 2 ∨ t.pc = s.pc + 4)
  | .ldImm _ _ | .addImm _ _ | .ldReg _ _ | .orReg _ _ | .andReg _ _ | .xorReg _ _ | .addReg _ _ | .sub _ _ | .shr _ _
  | .subn _ _ | .shl _ _ | .ldVxDt _ => t = { s with v := t.v, pc := s.pc + 2 }

/-- Every instruction answers a next state. -/
theorem exec_answers_next (i : Instr) (s : State) : ∃ t, exec i s = .next t := by
  have hc : ∀ w e, ∃ t, s.commit w e = .next t := by
    intro w e; cases e <;> simp
  cases i <;> first | exact ⟨_, rfl⟩ | exact hc _ _ | skip
  simp only [exec, execLdVxK]
  split <;> exact ⟨_, rfl⟩

/-- An instruction halts with a fault and changes nothing else, or has its effect. -/
theorem exec_effect (i : Instr) (s t : State) (h : exec i s = .next t) :
    (∃ r, t = s.haltAt (encode i) r) ∨ Effect i s t := by
  have hc : ∀ e : Except Raise State, s.commit (encode i) e = .next t → (e = .ok t → Effect i s t) →
      (∃ r, t = s.haltAt (encode i) r) ∨ Effect i s t := by
    intro e he hok
    rcases s.commit_cases _ _ t he with h | ⟨r, -, h⟩
    · exact .inr (hok h)
    · exact .inl ⟨r, h⟩
  cases i
  case rnd x nn =>
    right
    have := Host.Outcome.next.inj h
    subst this
    simp only [Effect]
    rw [State.draw_frame]
    rfl
  case ldVxK x =>
    right
    simp only [exec, execLdVxK] at h
    split at h <;> (have := Host.Outcome.next.inj h; subst this)
    · exact .inr rfl
    · exact .inl rfl
  case ret =>
    refine hc _ h fun hu => ?_
    obtain ⟨⟨top, u⟩, h1, rfl⟩ := except_map_eq_ok hu
    obtain ⟨below, hs, rfl⟩ := s.pop_eq_ok u top h1
    exact ⟨below, top, hs, rfl⟩
  case call nnn =>
    refine hc _ h fun hu => ?_
    obtain ⟨u, h1, rfl⟩ := except_map_eq_ok hu
    obtain ⟨hl, rfl⟩ := s.push_eq_ok u _ h1
    exact ⟨hl, rfl⟩
  case ldB x =>
    refine hc _ h fun hu => ?_
    obtain ⟨u, h1, rfl⟩ := except_map_eq_ok hu
    obtain ⟨hl, rfl⟩ := s.memWrite_eq_ok u _ _ h1
    exact ⟨hl, rfl⟩
  case ldMemVx x =>
    refine hc _ h fun hu => ?_
    obtain ⟨u, h1, rfl⟩ := except_map_eq_ok hu
    obtain ⟨hl, rfl⟩ := s.memWrite_eq_ok u _ _ h1
    exact ⟨by simpa using hl, rfl⟩
  case ldVxMem x =>
    refine hc _ h fun hu => ?_
    obtain ⟨bs, h1, rfl⟩ := except_map_eq_ok hu
    simp only [Effect]
    rw [State.loadRegs_frame]
    rfl
  case drw | addI =>
    refine hc _ h fun hu => ?_
    obtain ⟨a, h1, rfl⟩ := except_map_eq_ok hu
    rfl
  case skp | sknp =>
    refine hc _ h fun hu => ?_
    obtain ⟨p, h1, rfl⟩ := except_map_eq_ok hu
    exact ⟨rfl, s.skip_pc_cases _⟩
  case seImm | sneImm | seReg | sneReg =>
    right
    have := Host.Outcome.next.inj h
    subst this
    exact ⟨rfl, s.skip_pc_cases _⟩
  all_goals
    right
    have := Host.Outcome.next.inj h
    subst this
    rfl

end Sys2Proof.Machine
end

