-- ==== Sys2Proof/Laws/Boot.lean ====
section
/-! SUPPORT. What construction can do (R330, R332, R306), once. -/

namespace Sys2Proof.Machine

/-- A construction that gives a state had all its adapters and a ROM that fits, and the state is that of R334 with the ROM
written at PROG_BASE. -/
theorem State.construct_eq_ok (p : Params) (failed : Option Adapter) (rom : List Byte) (s : State)
    (h : State.construct p failed rom = .ok s) :
    failed = none ∧ progBase + rom.length ≤ memSize ∧
      s = { State.initial p with mem := (State.initial p).mem.setBytes p.fontTable progBase rom } := by
  cases failed with
  | some a => simp [State.construct] at h
  | none =>
    refine ⟨rfl, ?_⟩
    cases hw : (State.initial p).memWrite progBase rom with
    | error r => simp [State.construct, State.loadRom, hw, Except.mapError] at h
    | ok t =>
      obtain ⟨hl, ht⟩ := State.memWrite_eq_ok _ t _ _ hw
      have hs : t = s := by simpa [State.construct, State.loadRom, hw, Except.mapError] using h
      exact ⟨hl, hs ▸ ht⟩

end Sys2Proof.Machine
end

