-- ==== Sys2Proof/Laws/Fields.lean ====
section
/-! SUPPORT. The fields of R91 in words built from their parts, and a word's parts from its fields; masks of built words. -/

namespace Sys2Proof

/-! ### Masks -/

theorem and_append {m n : Nat} (a c : BitVec m) (b d : BitVec n) :
    (a ++ b) &&& (c ++ d) = (a &&& c) ++ (b &&& d) := by
  apply BitVec.eq_of_getLsbD_eq
  intro i hi
  simp only [BitVec.getLsbD_and, BitVec.getLsbD_append]
  split <;> rfl

theorem and_F (a : BitVec 4) : a &&& 0xF#4 = a := BitVec.and_allOnes

theorem and_FF (a : Byte) : a &&& 0xFF#8 = a := BitVec.and_allOnes

theorem mask_nnn (op : BitVec 4) (nnn : BitVec 12) : (op ++ nnn : Word) &&& 0xF000#16 = op ++ 0#12 := by
  refine (and_append op 0xF#4 nnn 0#12).trans ?_
  rw [and_F, BitVec.and_zero]

theorem mask_x_nn (op x : BitVec 4) (nn : Byte) : (op ++ x ++ nn : Word) &&& 0xF000#16 = op ++ 0#4 ++ 0#8 := by
  refine (and_append (op ++ x) (0xF#4 ++ 0x0#4) nn 0#8).trans ?_
  rw [and_append, and_F, BitVec.and_zero, BitVec.and_zero]

theorem mask_x_sel (op x : BitVec 4) (nn : Byte) : (op ++ x ++ nn : Word) &&& 0xF0FF#16 = op ++ 0#4 ++ nn := by
  refine (and_append (op ++ x) (0xF#4 ++ 0x0#4) nn 0xFF#8).trans ?_
  rw [and_append, and_F, and_FF, BitVec.and_zero]

theorem mask_x_y_n (op x y n : BitVec 4) :
    (op ++ x ++ y ++ n : Word) &&& 0xF000#16 = op ++ 0#4 ++ 0#4 ++ 0#4 := by
  refine (and_append (op ++ x ++ y) (0xF#4 ++ 0x0#4 ++ 0x0#4) n 0#4).trans ?_
  rw [and_append, and_append, and_F, BitVec.and_zero, BitVec.and_zero, BitVec.and_zero]

theorem mask_x_y_sel (op x y n : BitVec 4) :
    (op ++ x ++ y ++ n : Word) &&& 0xF00F#16 = op ++ 0#4 ++ 0#4 ++ n := by
  refine (and_append (op ++ x ++ y) (0xF#4 ++ 0x0#4 ++ 0x0#4) n 0xF#4).trans ?_
  rw [and_append, and_append, and_F, and_F, BitVec.and_zero, BitVec.and_zero]

/-! ### The fields of a built word -/

theorem extract_low {m n : Nat} (a : BitVec m) (b : BitVec n) : (a ++ b).extractLsb' 0 n = b := by
  apply BitVec.eq_of_getLsbD_eq
  intro i hi
  simp [BitVec.getLsbD_append, hi]

theorem extract_high {m n k : Nat} (a : BitVec m) (b : BitVec n) (j : Nat) :
    (a ++ b).extractLsb' (n + j) k = a.extractLsb' j k := by
  apply BitVec.eq_of_getLsbD_eq
  intro i hi
  simp [BitVec.getLsbD_append, hi, Nat.add_assoc]

theorem extract_all {n : Nat} (a : BitVec n) : a.extractLsb' 0 n = a := by
  apply BitVec.eq_of_getLsbD_eq
  intro i hi
  simp [hi]

@[simp] theorem opField_nnn (op : BitVec 4) (nnn : BitVec 12) : opField (op ++ nnn) = op :=
  (extract_high op nnn 0).trans (extract_all op)

@[simp] theorem nnnField_nnn (op : BitVec 4) (nnn : BitVec 12) : nnnField (op ++ nnn) = nnn :=
  extract_low op nnn

@[simp] theorem opField_x_nn (op x : BitVec 4) (nn : Byte) : opField (op ++ x ++ nn) = op :=
  (extract_high (op ++ x) nn 4).trans ((extract_high op x 0).trans (extract_all op))

@[simp] theorem xField_x_nn (op x : BitVec 4) (nn : Byte) : xField (op ++ x ++ nn) = x.toFin :=
  congrArg BitVec.toFin ((extract_high (op ++ x) nn 0).trans (extract_low op x))

@[simp] theorem nnField_x_nn (op x : BitVec 4) (nn : Byte) : nnField (op ++ x ++ nn) = nn :=
  extract_low (op ++ x) nn

@[simp] theorem opField_x_y_n (op x y n : BitVec 4) : opField (op ++ x ++ y ++ n) = op :=
  (extract_high (op ++ x ++ y) n 8).trans
    ((extract_high (op ++ x) y 4).trans ((extract_high op x 0).trans (extract_all op)))

@[simp] theorem xField_x_y_n (op x y n : BitVec 4) : xField (op ++ x ++ y ++ n) = x.toFin :=
  congrArg BitVec.toFin
    ((extract_high (op ++ x ++ y) n 4).trans ((extract_high (op ++ x) y 0).trans (extract_low op x)))

@[simp] theorem yField_x_y_n (op x y n : BitVec 4) : yField (op ++ x ++ y ++ n) = y.toFin :=
  congrArg BitVec.toFin ((extract_high (op ++ x ++ y) n 0).trans (extract_low (op ++ x) y))

@[simp] theorem nField_x_y_n (op x y n : BitVec 4) : nField (op ++ x ++ y ++ n) = n :=
  extract_low (op ++ x ++ y) n

@[simp] theorem toFin_regField (r : Reg) : (regField r).toFin = r := rfl

@[simp] theorem regField_toFin (x : BitVec 4) : regField x.toFin = x := rfl

/-! ### A word from its fields -/

theorem split_word {k n : Nat} (w : BitVec (k + n)) : w.extractLsb' n k ++ w.extractLsb' 0 n = w := by
  apply BitVec.eq_of_getLsbD_eq
  intro i hi
  rw [BitVec.getLsbD_append]
  by_cases h : i < n
  · simp [h]
  · have h' : i - n < k := by omega
    have e : n + (i - n) = i := by omega
    simp [h, h', e]

theorem word_op_nnn (w : Word) : (opField w ++ nnnField w : Word) = w := split_word (k := 4) (n := 12) w

theorem extract_extract {n : Nat} (w : BitVec n) (a k b j : Nat) (h : b + j ≤ k) :
    (w.extractLsb' a k).extractLsb' b j = w.extractLsb' (a + b) j := by
  apply BitVec.eq_of_getLsbD_eq
  intro i hi
  have h' : b + i < k := by omega
  simp [hi, h', Nat.add_assoc]

theorem word_x_nn (w : Word) : (opField w ++ regField (xField w) ++ nnField w : Word) = w := by
  have h : opField w ++ regField (xField w) = (w.extractLsb' 8 8 : BitVec 8) := by
    have := split_word (k := 4) (n := 4) (w.extractLsb' 8 8)
    rwa [extract_extract w 8 8 4 4 (by omega), extract_extract w 8 8 0 4 (by omega)] at this
  rw [h]
  exact split_word (k := 8) (n := 8) w

theorem word_x_y_n (w : Word) :
    (opField w ++ regField (xField w) ++ regField (yField w) ++ nField w : Word) = w := by
  have h8 : opField w ++ regField (xField w) = (w.extractLsb' 8 8 : BitVec 8) := by
    have := split_word (k := 4) (n := 4) (w.extractLsb' 8 8)
    rwa [extract_extract w 8 8 4 4 (by omega), extract_extract w 8 8 0 4 (by omega)] at this
  have h12 : opField w ++ regField (xField w) ++ regField (yField w) = (w.extractLsb' 4 12 : BitVec 12) := by
    have := split_word (k := 8) (n := 4) (w.extractLsb' 4 12)
    rw [extract_extract w 4 12 4 8 (by omega), extract_extract w 4 12 0 4 (by omega)] at this
    rw [h8]
    exact this
  rw [h12]
  exact split_word (k := 12) (n := 4) w

end Sys2Proof
end

