-- ==== Sys2Proof/Laws/PerInstr.lean ====
section
/-! SUPPORT. The per-instruction family OpcodeRow: the encoded word carries the mask and match of the instruction's row in
the opcode map (R93), so no operand reaches a fixed bit. -/

namespace Sys2Proof.Laws.OpcodeRow

/-- The encoded word matches its row: `w & mask == match` (R93). -/
def Statement (i : Instr) : Prop := encode i &&& rowMask i = rowMatch i

theorem cls : Statement .cls := rfl

theorem ret : Statement .ret := rfl

theorem jp (nnn : BitVec 12) : Statement (.jp nnn) := mask_nnn _ nnn

theorem call (nnn : BitVec 12) : Statement (.call nnn) := mask_nnn _ nnn

theorem seImm (x : Reg) (nn : Byte) : Statement (.seImm x nn) := mask_x_nn _ _ nn

theorem sneImm (x : Reg) (nn : Byte) : Statement (.sneImm x nn) := mask_x_nn _ _ nn

theorem seReg (x y : Reg) : Statement (.seReg x y) := mask_x_y_sel _ _ _ _

theorem ldImm (x : Reg) (nn : Byte) : Statement (.ldImm x nn) := mask_x_nn _ _ nn

theorem addImm (x : Reg) (nn : Byte) : Statement (.addImm x nn) := mask_x_nn _ _ nn

theorem ldReg (x y : Reg) : Statement (.ldReg x y) := mask_x_y_sel _ _ _ _

theorem orReg (x y : Reg) : Statement (.orReg x y) := mask_x_y_sel _ _ _ _

theorem andReg (x y : Reg) : Statement (.andReg x y) := mask_x_y_sel _ _ _ _

theorem xorReg (x y : Reg) : Statement (.xorReg x y) := mask_x_y_sel _ _ _ _

theorem addReg (x y : Reg) : Statement (.addReg x y) := mask_x_y_sel _ _ _ _

theorem sub (x y : Reg) : Statement (.sub x y) := mask_x_y_sel _ _ _ _

theorem shr (x y : Reg) : Statement (.shr x y) := mask_x_y_sel _ _ _ _

theorem subn (x y : Reg) : Statement (.subn x y) := mask_x_y_sel _ _ _ _

theorem shl (x y : Reg) : Statement (.shl x y) := mask_x_y_sel _ _ _ _

theorem sneReg (x y : Reg) : Statement (.sneReg x y) := mask_x_y_sel _ _ _ _

theorem ldI (nnn : BitVec 12) : Statement (.ldI nnn) := mask_nnn _ nnn

theorem jpV0 (nnn : BitVec 12) : Statement (.jpV0 nnn) := mask_nnn _ nnn

theorem rnd (x : Reg) (nn : Byte) : Statement (.rnd x nn) := mask_x_nn _ _ nn

theorem drw (x y : Reg) (n : Nat) : Statement (.drw x y n) := mask_x_y_n _ _ _ _

theorem skp (x : Reg) : Statement (.skp x) := mask_x_sel _ _ _

theorem sknp (x : Reg) : Statement (.sknp x) := mask_x_sel _ _ _

theorem ldVxDt (x : Reg) : Statement (.ldVxDt x) := mask_x_sel _ _ _

theorem ldVxK (x : Reg) : Statement (.ldVxK x) := mask_x_sel _ _ _

theorem ldDtVx (x : Reg) : Statement (.ldDtVx x) := mask_x_sel _ _ _

theorem ldStVx (x : Reg) : Statement (.ldStVx x) := mask_x_sel _ _ _

theorem addI (x : Reg) : Statement (.addI x) := mask_x_sel _ _ _

theorem ldF (x : Reg) : Statement (.ldF x) := mask_x_sel _ _ _

theorem ldB (x : Reg) : Statement (.ldB x) := mask_x_sel _ _ _

theorem ldMemVx (x : Reg) : Statement (.ldMemVx x) := mask_x_sel _ _ _

theorem ldVxMem (x : Reg) : Statement (.ldVxMem x) := mask_x_sel _ _ _

end Sys2Proof.Laws.OpcodeRow
end

