-- ==== Sys2Proof/Laws/Time.lean ====
section
/-! SUPPORT. The exact seconds of the scheduler (R294 to R296) in the terms of the rationals, and the timers after n
ticks (R290). -/

namespace Sys2Proof.Machine

theorem addSeconds_eq (a b : Rat) : addSeconds a b = a + b := by
  rw [addSeconds, Rat.add_def']

theorem deltaIn_eq (inp : HostInput) : deltaIn inp = (inp.deltaNum : Rat) / inp.deltaDen := by
  rw [deltaIn, Rat.mkRat_eq_div]
  simp

theorem deltaIn_nonneg (inp : HostInput) : 0 ≤ deltaIn inp := by
  rw [deltaIn_eq]; positivity

theorem capDelta_eq (d : Rat) : capDelta d = min d 3 := by
  have hd : (0 : Rat) < d.den := by exact_mod_cast d.den_pos
  have key : (d.num ≤ (deltaCap : Int) * d.den) ↔ d ≤ 3 := by
    conv_rhs => rw [← Rat.num_div_den d, div_le_iff₀ hd]
    norm_cast
  have h3 : mkRat (deltaCap : Int) 1 = 3 := by rw [Rat.mkRat_eq_div]; norm_num
  unfold capDelta
  by_cases h : d ≤ 3
  · rw [if_pos (key.mpr h), min_eq_left h]
  · rw [if_neg (fun e => h (key.mp e)), min_eq_right (le_of_not_ge h), h3]

theorem capDelta_nonneg (d : Rat) (h : 0 ≤ d) : 0 ≤ capDelta d := by
  rw [capDelta_eq]; exact le_min h (by norm_num)

theorem spendTicks_eq (acc : Rat) (n : Nat) : spendTicks acc n = acc - n / 60 := by
  have hd : (acc.den : Rat) ≠ 0 := by exact_mod_cast acc.den_nz
  rw [spendTicks, Rat.mkRat_eq_div]
  push_cast
  conv_rhs => rw [← Rat.num_div_den acc]
  field_simp

/-- The ticks due are the whole number of ticks that fit. -/
theorem ticksDue_spec (acc : Rat) (h : 0 ≤ acc) :
    (ticksDue acc : Rat) / 60 ≤ acc ∧ acc < ((ticksDue acc : Rat) + 1) / 60 := by
  have hd : (0 : Rat) < acc.den := by exact_mod_cast acc.den_pos
  have hn : 0 ≤ acc.num := Rat.num_nonneg.mpr h
  obtain ⟨n, hn'⟩ := Int.eq_ofNat_of_zero_le hn
  have he : acc = (n : Rat) / acc.den := by
    conv_lhs => rw [← Rat.num_div_den acc, hn']
    simp
  have ht : ticksDue acc = n * 60 / acc.den := by simp [ticksDue, hn']
  have h1 : n * 60 / acc.den * acc.den ≤ n * 60 := Nat.div_mul_le_self _ _
  have h2 : n * 60 < (n * 60 / acc.den + 1) * acc.den := by
    have := Nat.lt_div_mul_add (a := n * 60) acc.den_pos
    rw [Nat.add_mul]; omega
  have h1' : ((n * 60 / acc.den : Nat) : Rat) * acc.den ≤ n * 60 := by exact_mod_cast h1
  have h2' : (n * 60 : Rat) < (((n * 60 / acc.den : Nat) : Rat) + 1) * acc.den := by exact_mod_cast h2
  rw [ht]
  constructor
  · rw [he, div_le_div_iff₀ (by norm_num) hd]; simpa [← he] using h1'
  · rw [he, div_lt_div_iff₀ hd (by norm_num)]; simpa [← he] using h2'

/-! ### The timers -/

theorem countDown_toNat (b : Byte) : (countDown b).toNat = b.toNat - 1 := by
  unfold countDown
  by_cases h : b = 0
  · simp [h]
  · have : b.toNat ≠ 0 := fun e => h (BitVec.eq_of_toNat_eq (by simpa using e))
    rw [if_neg h]
    have := b.isLt
    simp [BitVec.toNat_sub]
    omega

/-- n ticks change the two timers and nothing else. -/
theorem State.tickN_frame (n : Nat) (s : State) :
    State.tickN n s = { s with dt := (State.tickN n s).dt, st := (State.tickN n s).st } := by
  induction n generalizing s with
  | zero => rfl
  | succ n ih => rw [State.tickN, ih]; rfl

theorem State.tickN_dt (n : Nat) (s : State) : (State.tickN n s).dt.toNat = s.dt.toNat - n := by
  induction n generalizing s with
  | zero => rfl
  | succ n ih => rw [State.tickN, ih, State.tick_dt, countDown_toNat]; omega

theorem State.tickN_st (n : Nat) (s : State) : (State.tickN n s).st.toNat = s.st.toNat - n := by
  induction n generalizing s with
  | zero => rfl
  | succ n ih => rw [State.tickN, ih, State.tick_st, countDown_toNat]; omega

/-- Stage (c) changes the timers and ACC and nothing else. -/
theorem State.catchUp_frame (s : State) :
    s.catchUp = { s with dt := s.catchUp.dt, st := s.catchUp.st, acc := s.catchUp.acc } := by
  unfold State.catchUp
  rw [State.tickN_frame]

@[simp] theorem State.catchUp_acc (s : State) : s.catchUp.acc = spendTicks s.acc (ticksDue s.acc) := by
  unfold State.catchUp
  rw [State.tickN_frame]

/-- Stages (a) to (c) change the timers and ACC and nothing else. -/
theorem State.passTime_frame (s : State) (d : Rat) :
    s.passTime d = { s with dt := (s.passTime d).dt, st := (s.passTime d).st, acc := (s.passTime d).acc } := by
  unfold State.passTime
  rw [State.catchUp_frame]
  rfl

/-! ### The audio calls -/

theorem beepEdge_rise (before after : Byte) (h : before = 0) (h' : after ≠ 0) : beepEdge before after = [.start] :=
  if_pos ⟨h, h'⟩

theorem beepEdge_fall (before after : Byte) (h : before ≠ 0) (h' : after = 0) : beepEdge before after = [.stop] := by
  rw [beepEdge, if_neg (fun e => h e.1), if_pos ⟨h, h'⟩]

theorem beepEdge_level (before after : Byte) (h : before = 0 ↔ after = 0) : beepEdge before after = [] := by
  rw [beepEdge, if_neg (fun e => e.2 (h.mp e.1)), if_neg (fun e => e.1 (h.mpr e.2))]

/-- Ticks never raise ST: their only call is `stop_beep`, when they take ST to 0. -/
theorem beepEdge_countDown (before after : Byte) (n : Nat) (h : after.toNat = before.toNat - n) :
    beepEdge before after = if before ≠ 0 ∧ after = 0 then [.stop] else [] := by
  by_cases hb : before = 0
  · have ha : after = 0 := BitVec.eq_of_toNat_eq (by rw [h, hb]; simp)
    rw [beepEdge_level _ _ (iff_of_true hb ha), if_neg (fun e => e.1 hb)]
  · by_cases ha : after = 0
    · rw [beepEdge_fall _ _ hb ha, if_pos ⟨hb, ha⟩]
    · rw [beepEdge_level _ _ (iff_of_false hb ha), if_neg (fun e => ha e.2)]

end Sys2Proof.Machine
end

