-- ==== Sys2Proof/Laws/Step.lean ====
section
/-! SUPPORT. What a step can do, once: the cases of the instruction cycle (R99) and of an iteration (R293). -/

namespace Sys2Proof.Machine

/-- Taking an iteration's input changes the model's two input fields and nothing else. -/
theorem State.takeInput_frame (s : State) :
    s.takeInput.2 = { s with hostInputs := s.takeInput.2.hostInputs, iterations := s.takeInput.2.iterations } := by
  unfold State.takeInput
  split <;> rfl

/-- Everything before stage (e) changes the timers, ACC, KEYS and the model's input fields, and nothing else. -/
theorem State.beforeStep_frame (s : State) :
    s.beforeStep.2 = { s with
      dt := s.beforeStep.2.dt, st := s.beforeStep.2.st, acc := s.beforeStep.2.acc, keys := s.beforeStep.2.keys,
      hostInputs := s.beforeStep.2.hostInputs, iterations := s.beforeStep.2.iterations } := by
  simp only [State.beforeStep]
  rw [State.passTime_frame, State.takeInput_frame]
  rfl

/-! What stages (a) to (d) leave alone. -/

@[simp] theorem State.beforeStep_params (s : State) : s.beforeStep.2.params = s.params := by
  rw [s.beforeStep_frame]

@[simp] theorem State.beforeStep_v (s : State) : s.beforeStep.2.v = s.v := by
  rw [s.beforeStep_frame]

@[simp] theorem State.beforeStep_i (s : State) : s.beforeStep.2.i = s.i := by
  rw [s.beforeStep_frame]

@[simp] theorem State.beforeStep_pc (s : State) : s.beforeStep.2.pc = s.pc := by
  rw [s.beforeStep_frame]

@[simp] theorem State.beforeStep_stack (s : State) : s.beforeStep.2.stack = s.stack := by
  rw [s.beforeStep_frame]

@[simp] theorem State.beforeStep_fb (s : State) : s.beforeStep.2.fb = s.fb := by
  rw [s.beforeStep_frame]

@[simp] theorem State.beforeStep_mem (s : State) : s.beforeStep.2.mem = s.mem := by
  rw [s.beforeStep_frame]

@[simp] theorem State.beforeStep_status (s : State) : s.beforeStep.2.status = s.status := by
  rw [s.beforeStep_frame]

@[simp] theorem State.beforeStep_frameOut (s : State) : s.beforeStep.2.frameOut = s.frameOut := by
  rw [s.beforeStep_frame]

@[simp] theorem State.beforeStep_randIn (s : State) : s.beforeStep.2.randIn = s.randIn := by
  rw [s.beforeStep_frame]

@[simp] theorem State.beforeStep_draws (s : State) : s.beforeStep.2.draws = s.draws := by
  rw [s.beforeStep_frame]

@[simp] theorem State.beforeStep_readByte (s : State) (a : Nat) : s.beforeStep.2.readByte a = s.readByte a :=
  congrArg₂ (fun (p : Params) m => Memory.get p.fontTable m a) s.beforeStep_params s.beforeStep_mem

@[simp] theorem State.beforeStep_keys (s : State) : s.beforeStep.2.keys = s.beforeStep.1.keys := rfl

/-- What the instruction cycle can do: a fetch fault, an ILLEGAL word, or the decoded instruction. -/
theorem runInstruction_cases (s : State) :
    (memSize < s.pc.toNat + 2 ∧
      runInstruction s = .next (s.halt ⟨.outOfBoundsAccess, some s.pc, none, .range s.pc.toNat 2⟩)) ∨
    (s.pc.toNat + 2 ≤ memSize ∧
      ((∃ e, decode (wordOfBytes (s.readByte s.pc.toNat) (s.readByte (s.pc.toNat + 1))) = .error e ∧
          runInstruction s = .next (s.haltAt (wordOfBytes (s.readByte s.pc.toNat) (s.readByte (s.pc.toNat + 1)))
            ⟨.unrecognizedOpcode, .word (wordOfBytes (s.readByte s.pc.toNat) (s.readByte (s.pc.toNat + 1)))⟩)) ∨
       (∃ i, decode (wordOfBytes (s.readByte s.pc.toNat) (s.readByte (s.pc.toNat + 1))) = .ok i ∧
          runInstruction s = exec i s))) := by
  by_cases h : s.pc.toNat + 2 ≤ memSize
  · right
    refine ⟨h, ?_⟩
    have hf : s.fetch = .ok (wordOfBytes (s.readByte s.pc.toNat) (s.readByte (s.pc.toNat + 1))) := by
      simp [State.fetch, State.memRead_ok s _ _ h, Memory.getBytes, List.range_succ, State.readByte]
    unfold runInstruction
    rw [hf]
    cases hd : decode (wordOfBytes (s.readByte s.pc.toNat) (s.readByte (s.pc.toNat + 1))) with
    | error e => exact .inl ⟨e, rfl, by simp [hd]⟩
    | ok i => exact .inr ⟨i, rfl, by simp [hd]⟩
  · left
    have h' : memSize < s.pc.toNat + 2 := by omega
    refine ⟨h', ?_⟩
    simp [runInstruction, State.fetch, State.memRead_error s _ _ h']

/-- Stage (f) changes STATUS and `frame_out` and nothing else. -/
theorem State.present_frame (s : State) (ok : Bool) :
    s.present ok = { s with status := (s.present ok).status, frameOut := (s.present ok).frameOut } := by
  unfold State.present
  split
  · split <;> rfl
  · rfl
  · rfl

/-- The calls of an iteration that answers a next state: those of the ticks, then those of the step. -/
theorem State.beepCalls_next (s t : State) (h : runIteration s = .next t) :
    s.beepCalls = beepEdge s.st s.beforeStep.2.st ++ beepEdge s.beforeStep.2.st t.st := by
  rw [State.beepCalls, h]

/-- What a step that answers a next state can have done. -/
theorem step_cases (s t : State) (h : step s = .next t) :
    s.status = .running ∧
      ((s.beforeStep.1.quit = true ∧ t = s.beforeStep.2.quitNow) ∨
       (s.beforeStep.1.quit = false ∧
          ∃ u, runInstruction s.beforeStep.2 = .next u ∧ t = u.present s.beforeStep.1.presentOk)) := by
  unfold step at h
  split at h
  · rename_i hs
    refine ⟨hs, ?_⟩
    unfold runIteration at h
    cases hq : s.beforeStep.1.quit
    · right
      refine ⟨rfl, ?_⟩
      simp only [hq, Bool.false_eq_true, if_false] at h
      split at h
      · rename_i u hu
        exact ⟨u, hu, by simpa using h.symm⟩
      · simp at h
      · simp at h
    · left
      simp only [hq, if_true] at h
      exact ⟨rfl, by simpa using h.symm⟩
  · simp at h
  · simp at h

end Sys2Proof.Machine
end

