-- ==== Sys2Proof/Safety.lean ====
section
/-! DEFINITION. What counts as a safe run (R307): STATUS is never Halted. A run that the host quits is safe; a program that
loops for ever is safe. -/

namespace Sys2Proof.Safety

open Sys2Proof.Machine

/-- STATUS is not Halted. -/
def NotHalted (s : State) : Prop := ∀ f, s.status ≠ .halted f

/-- The first k iterations from s never leave STATUS Halted; a Quit ends the run and keeps it safe. -/
def SafeFor : Nat → State → Prop
  | 0, s => NotHalted s
  | k + 1, s => NotHalted s ∧ ∀ t, step s = .next t → SafeFor k t

/-- Every finite run from s is safe (R307: "STATUS is never Halted"). -/
def Safe (s : State) : Prop := ∀ k, SafeFor k s

end Sys2Proof.Safety
end

