-- ==== Sys2Proof/Tests/Slice0.lean ====
section
/-! SUPPORT. Tests. Expected results are those of spec/95_test_vectors.md, named in each docstring (its sections 1 and 2), or
words written out from the encodings of spec/opcode_table.json; none is the model's own answer. After them, one witness for
the hypotheses of each obligation that has any. -/

set_option maxRecDepth 4000

namespace Sys2Proof.Tests

open Sys2Proof Sys2Proof.Machine Sys2Proof.Stated

/-! ### Well-formedness: the one check and the term it refuses -/

theorem test_wellformed_refuses_sixteen_rows : WellFormed (.drw 0 0 16) = false := by decide

theorem test_wellformed_accepts_fifteen_rows : WellFormed (.drw 0 0 15) = true := by decide

/-! ### Decoding: a word of every row, written out bit by bit from the encoding column -/

theorem test_decode_cls : decode 0b0000000011100000#16 = .ok .cls := by decide

theorem test_decode_ret : decode 0b0000000011101110#16 = .ok .ret := by decide

theorem test_decode_jp : decode 0b0001101010111100#16 = .ok (.jp 0xABC) := by decide

theorem test_decode_call : decode 0b0010000100100011#16 = .ok (.call 0x123) := by decide

theorem test_decode_se_imm : decode 0b0011011110001001#16 = .ok (.seImm 7 0x89) := by decide

theorem test_decode_sne_imm : decode 0b0100111000000001#16 = .ok (.sneImm 14 0x01) := by decide

theorem test_decode_se_reg : decode 0b0101000100100000#16 = .ok (.seReg 1 2) := by decide

theorem test_decode_ld_imm : decode 0b0110101000111100#16 = .ok (.ldImm 10 0x3C) := by decide

theorem test_decode_add_imm : decode 0b0111001100000010#16 = .ok (.addImm 3 0x02) := by decide

theorem test_decode_ld_reg : decode 0b1000000100100000#16 = .ok (.ldReg 1 2) := by decide

theorem test_decode_or : decode 0b1000000100100001#16 = .ok (.orReg 1 2) := by decide

theorem test_decode_and : decode 0b1000001101000010#16 = .ok (.andReg 3 4) := by decide

theorem test_decode_xor : decode 0b1000010101100011#16 = .ok (.xorReg 5 6) := by decide

theorem test_decode_add_reg : decode 0b1000111100010100#16 = .ok (.addReg 15 1) := by decide

theorem test_decode_sub : decode 0b1000100001110101#16 = .ok (.sub 8 7) := by decide

theorem test_decode_shr : decode 0b1000101010110110#16 = .ok (.shr 10 11) := by decide

theorem test_decode_subn : decode 0b1000000111110111#16 = .ok (.subn 1 15) := by decide

theorem test_decode_shl : decode 0b1000110011011110#16 = .ok (.shl 12 13) := by decide

theorem test_decode_sne_reg : decode 0b1001001000110000#16 = .ok (.sneReg 2 3) := by decide

theorem test_decode_ld_i : decode 0b1010111100000001#16 = .ok (.ldI 0xF01) := by decide

theorem test_decode_jp_v0 : decode 0b1011001000010100#16 = .ok (.jpV0 0x214) := by decide

theorem test_decode_rnd : decode 0b1100110100001111#16 = .ok (.rnd 13 0x0F) := by decide

theorem test_decode_drw : decode 0b1101001001111011#16 = .ok (.drw 2 7 11) := by decide

theorem test_decode_skp : decode 0b1110010110011110#16 = .ok (.skp 5) := by decide

theorem test_decode_sknp : decode 0b1110011010100001#16 = .ok (.sknp 6) := by decide

theorem test_decode_ld_vx_dt : decode 0b1111001100000111#16 = .ok (.ldVxDt 3) := by decide

theorem test_decode_ld_vx_k : decode 0b1111001000001010#16 = .ok (.ldVxK 2) := by decide

theorem test_decode_ld_dt_vx : decode 0b1111000100010101#16 = .ok (.ldDtVx 1) := by decide

theorem test_decode_ld_st_vx : decode 0b1111100100011000#16 = .ok (.ldStVx 9) := by decide

theorem test_decode_add_i : decode 0b1111001000011110#16 = .ok (.addI 2) := by decide

theorem test_decode_ld_f : decode 0b1111111000101001#16 = .ok (.ldF 14) := by decide

theorem test_decode_ld_b : decode 0b1111010000110011#16 = .ok (.ldB 4) := by decide

theorem test_decode_ld_mem_vx : decode 0b1111111101010101#16 = .ok (.ldMemVx 15) := by decide

theorem test_decode_ld_vx_mem : decode 0b1111011001100101#16 = .ok (.ldVxMem 6) := by decide

/-- DEC5 to DEC15: words that are no instruction. -/
theorem test_decode_illegal_words : [0x0000#16, 0x0123#16, 0x00E1#16, 0x5121#16, 0x9121#16, 0x8008#16, 0x800F#16,
    0xE000#16, 0xE09F#16, 0xF000#16, 0xF0FF#16, 0xFFFF#16].all
      (fun w => decide (decode w = .error (.illegal w))) = true := by decide

/-- R69: the first byte is bits 15:8; a lone byte is no instruction. -/
theorem test_decode_bytes_big_endian : decodeBytes [0x6A, 0x3C, 0x77] = .ok (.ldImm 10 0x3C, [0x77]) ∧
    decodeBytes [0x6A] = .error .truncated := by decide

theorem test_decode_table_word : decodeTableWord 16 0x8AB6 = some (.shr 10 11) ∧ decodeTableWord 16 0x5121 = none := by decide

/-! ### One step: the word at PC = 0x300 in the reset state with a few fields set (the convention of 95_test_vectors.md) -/

/-- The reset state with PC = 0x300. -/
def s0 : State := { State.reset with pc := 0x300 }

/-- One step with the word at PC and no time passing, then a check of the next state. -/
def after (s : State) (w : Nat) (check : State → Bool) : Bool :=
  match step (s.withFetchWord 16 w) with
  | .next t => check t
  | .fault _ | .refused _ => false

/-- STATUS is Halted with this record, and PC is as it was. -/
def haltedWith (s : State) (w : Word) (kind : FaultKind) (info : FaultInfo) (t : State) : Bool :=
  decide (t.status = .halted ⟨kind, some s.pc, some w, info⟩ ∧ t.pc = s.pc ∧ t.v = s.v ∧ t.i = s.i ∧ t.stack = s.stack)

/-- One key pressed. -/
def pressed (k : Reg) : Keys := (Vector.replicate 16 false).set k true

/-- Bytes in memory. -/
def State.put (s : State) (a : Nat) (bs : List Byte) : State := { s with mem := s.mem.setBytes s.params.fontTable a bs }

/-- One pixel set. -/
def State.light (s : State) (r : Fin 32) (c : Fin 64) : State := { s with fb := s.fb.flip r c }

/-- DSP12 -/
theorem test_cls : after (State.light (s0.setV 15 0x77) 3 5) 0x00E0 (fun t => decide (t.fb = Vector.replicate 32 0 ∧ t.getV 15 = 0x77 ∧ t.pc = 0x302)) = true := by decide

/-- FLW2 -/
theorem test_ret : after { s0 with stack := [0x202] } 0x00EE (fun t => decide (t.stack = [] ∧ t.pc = 0x202)) = true := by decide

/-- FLW4 -/
theorem test_ret_underflow : after s0 0x00EE (haltedWith s0 0x00EE .stackUnderflow (.depth 0)) = true := by decide

/-- FLW7 -/
theorem test_jp : after s0 0x1FFF (fun t => decide (t.pc = 0xFFF)) = true := by decide

/-- FLW1, at 0x300 -/
theorem test_call : after s0 0x2345 (fun t => decide (t.stack = [0x302] ∧ t.pc = 0x345)) = true := by decide

/-- FLW3 -/
theorem test_call_overflow : after { s0 with stack := List.replicate 16 0x202 } 0x2400 (haltedWith { s0 with stack := List.replicate 16 0x202 } 0x2400 .stackOverflow (.depth 16)) = true := by decide

/-- FLW9: no 12-bit wrap -/
theorem test_jp_v0 : after (s0.setV 0 0xFF) 0xBFFF (fun t => decide (t.pc = 0x10FE)) = true := by decide

/-- FLW11 -/
theorem test_se_imm : after (s0.setV 3 0x42) 0x3342 (fun t => decide (t.pc = 0x304)) = true := by decide

/-- FLW12 -/
theorem test_se_imm_not_equal : after (s0.setV 3 0x42) 0x3343 (fun t => decide (t.pc = 0x302)) = true := by decide

/-- FLW13 -/
theorem test_sne_imm : after (s0.setV 3 0x42) 0x4342 (fun t => decide (t.pc = 0x302)) = true := by decide

/-- FLW14 -/
theorem test_sne_imm_not_equal : after (s0.setV 3 0x42) 0x4300 (fun t => decide (t.pc = 0x304)) = true := by decide

/-- FLW15 -/
theorem test_se_reg : after ((s0.setV 1 7).setV 2 7) 0x5120 (fun t => decide (t.pc = 0x304)) = true := by decide

/-- FLW16 -/
theorem test_se_reg_not_equal : after ((s0.setV 1 7).setV 2 8) 0x5120 (fun t => decide (t.pc = 0x302)) = true := by decide

/-- FLW18 -/
theorem test_sne_reg : after ((s0.setV 1 7).setV 2 8) 0x9120 (fun t => decide (t.pc = 0x304)) = true := by decide

/-- FLW19 -/
theorem test_sne_reg_same_register : after (s0.setV 1 7) 0x9110 (fun t => decide (t.pc = 0x302)) = true := by decide

/-- ALU1 -/
theorem test_ld_imm : after s0 0x6A3C (fun t => decide (t.getV 10 = 0x3C ∧ t.pc = 0x302)) = true := by decide

/-- W5, ALU3: wraps, no flag -/
theorem test_add_imm : after ((s0.setV 3 0xFF).setV 15 0x5A) 0x7302 (fun t => decide (t.getV 3 = 1 ∧ t.getV 15 = 0x5A)) = true := by decide

/-- ALU6 -/
theorem test_ld_reg : after (s0.setV 2 0x99) 0x8120 (fun t => decide (t.getV 1 = 0x99)) = true := by decide

/-- ALU7 -/
theorem test_or : after (((s0.setV 1 0xF0).setV 2 0x0F).setV 15 0x55) 0x8121 (fun t => decide (t.getV 1 = 0xFF ∧ t.getV 15 = 0x55)) = true := by decide

/-- ALU8 -/
theorem test_and : after (((s0.setV 1 0xF0).setV 2 0x3C).setV 15 0x55) 0x8122 (fun t => decide (t.getV 1 = 0x30 ∧ t.getV 15 = 0x55)) = true := by decide

/-- ALU9 -/
theorem test_xor : after (((s0.setV 1 0xF0).setV 2 0x3C).setV 15 0x55) 0x8123 (fun t => decide (t.getV 1 = 0xCC ∧ t.getV 15 = 0x55)) = true := by decide

/-- W6 -/
theorem test_add_reg_carry : after ((s0.setV 1 0xFF).setV 2 0xFF) 0x8124 (fun t => decide (t.getV 1 = 0xFE ∧ t.getV 15 = 1)) = true := by decide

/-- ALU12: the carry is written last -/
theorem test_add_reg_into_vf : after ((s0.setV 15 0x10).setV 1 0xF0) 0x8F14 (fun t => decide (t.getV 15 = 1)) = true := by decide

/-- ALU15 -/
theorem test_sub_borrow : after ((s0.setV 1 3).setV 2 5) 0x8125 (fun t => decide (t.getV 1 = 0xFE ∧ t.getV 15 = 0)) = true := by decide

/-- ALU16: strict comparison -/
theorem test_sub_equal : after ((s0.setV 1 5).setV 2 5) 0x8125 (fun t => decide (t.getV 1 = 0 ∧ t.getV 15 = 0)) = true := by decide

/-- DEC16: y is ignored -/
theorem test_shr : after ((s0.setV 10 0x05).setV 11 0xF0) 0x8AB6 (fun t => decide (t.getV 10 = 0x02 ∧ t.getV 15 = 1)) = true := by decide

/-- ALU25: the flag is shifted -/
theorem test_shr_vf : after (s0.setV 15 0xFF) 0x8F06 (fun t => decide (t.getV 15 = 0)) = true := by decide

/-- ALU20 -/
theorem test_subn : after ((s0.setV 1 3).setV 2 5) 0x8127 (fun t => decide (t.getV 1 = 2 ∧ t.getV 15 = 1)) = true := by decide

/-- ALU19 -/
theorem test_subn_borrow : after ((s0.setV 1 5).setV 2 3) 0x8127 (fun t => decide (t.getV 1 = 0xFE ∧ t.getV 15 = 0)) = true := by decide

/-- ALU27 -/
theorem test_shl : after (s0.setV 1 0x81) 0x810E (fun t => decide (t.getV 1 = 0x02 ∧ t.getV 15 = 1)) = true := by decide

/-- ALU30: the flag is shifted -/
theorem test_shl_vf : after (s0.setV 15 0x80) 0x8F0E (fun t => decide (t.getV 15 = 2)) = true := by decide

/-- MEM1 -/
theorem test_ld_i : after s0 0xAFFF (fun t => decide (t.i = 0xFFF ∧ t.pc = 0x302)) = true := by decide

/-- ALU32 -/
theorem test_rnd : after { s0 with randIn := [0xA7, 0x11] } 0xC30F (fun t => decide (t.getV 3 = 0x07 ∧ t.randIn = [0x11])) = true := by decide

/-- W4: rows 31 and 0, columns 60 to 63 and 0 to 3 -/
theorem test_drw_wraps : after (State.put (((s0.setV 0 60).setV 1 31).setI 0x400) 0x400 [0xFF, 0xFF]) 0xD012 (fun t => decide (t.fb[31] = 0xF00000000000000F ∧ t.fb[0] = 0xF00000000000000F ∧ t.getV 15 = 0)) = true := by decide

/-- W3 instance C, first draw -/
theorem test_drw_collision : after { s0 with fb := (Vector.replicate 32 0).set 0 0xF } 0xD011 (fun t => decide (t.fb = Vector.replicate 32 0 ∧ t.getV 15 = 1)) = true := by decide

/-- KEY1 -/
theorem test_skp : after { s0.setV 5 0x0A with keys := pressed 10 } 0xE59E (fun t => decide (t.pc = 0x304)) = true := by decide

/-- KEY5 -/
theorem test_skp_key_above_15 : after (s0.setV 5 0x10) 0xE59E (haltedWith (s0.setV 5 0x10) 0xE59E .outOfBoundsAccess (.key 0x10)) = true := by decide

/-- KEY4 -/
theorem test_sknp : after { s0.setV 5 0x0A with keys := pressed 10 } 0xE5A1 (fun t => decide (t.pc = 0x302)) = true := by decide

/-- KEY6: the high nibble is not masked off -/
theorem test_sknp_key_above_15 : after (s0.setV 5 0xFA) 0xE5A1 (haltedWith (s0.setV 5 0xFA) 0xE5A1 .outOfBoundsAccess (.key 0xFA)) = true := by decide

/-- KEY7 -/
theorem test_ld_vx_dt : after (s0.setDt 0x20) 0xF307 (fun t => decide (t.getV 3 = 0x20)) = true := by decide

/-- KEY8 -/
theorem test_ld_vx_k_holds : after s0 0xF20A (fun t => decide (t.pc = 0x300 ∧ t.v = s0.v)) = true := by decide

/-- KEY9 -/
theorem test_ld_vx_k_least_key : after { s0 with keys := (pressed 7).set 3 true } 0xF20A (fun t => decide (t.getV 2 = 3 ∧ t.pc = 0x302)) = true := by decide

/-- KEY11 -/
theorem test_ld_dt_vx : after (s0.setV 1 0x3C) 0xF115 (fun t => decide (t.dt = 60)) = true := by decide

/-- KEY12 -/
theorem test_ld_st_vx : after (s0.setV 1 5) 0xF118 (fun t => decide (t.st = 5 ∧ t.beepOut = true)) = true := by decide

/-- KEY13 -/
theorem test_ld_st_vx_zero : after (s0.setSt 5) 0xF118 (fun t => decide (t.st = 0 ∧ t.beepOut = false)) = true := by decide

/-- MEM3 -/
theorem test_add_i : after ((s0.setI 0xFF7F).setV 1 0x80) 0xF11E (fun t => decide (t.i = 0xFFFF)) = true := by decide

/-- MEM4 -/
theorem test_add_i_overflow : after ((s0.setI 0xFF80).setV 1 0x80) 0xF11E (haltedWith ((s0.setI 0xFF80).setV 1 0x80) 0xF11E .integerOverflow (.overflow 0xFF80 0x80)) = true := by decide

/-- MEM6: the high nibble is ignored -/
theorem test_ld_f : after (s0.setV 0 0x1A) 0xF029 (fun t => decide (t.i = 0x32)) = true := by decide

/-- MEM12: ends at 4096 -/
theorem test_ld_b : after ((s0.setV 0 0xFF).setI 0xFFD) 0xF033 (fun t => decide (t.mem.getBytes t.params.fontTable 0xFFD 3 = [2, 5, 5] ∧ t.i = 0xFFD)) = true := by decide

/-- MEM13 -/
theorem test_ld_b_out_of_bounds : after ((s0.setV 0 0xFF).setI 0xFFE) 0xF033 (haltedWith ((s0.setV 0 0xFF).setI 0xFFE) 0xF033 .outOfBoundsAccess (.range 0xFFE 3)) = true := by decide

/-- MEM14, with a third register that must not be stored -/
theorem test_ld_mem_vx : after ((((s0.setV 0 0x11).setV 1 0x22).setV 2 0x33).setI 0x400) 0xF155 (fun t => decide (t.mem.getBytes t.params.fontTable 0x400 3 = [0x11, 0x22, 0x00] ∧ t.i = 0x402)) = true := by decide

/-- MEM17 -/
theorem test_ld_mem_vx_out_of_bounds : after (s0.setI 0xFF1) 0xFF55 (haltedWith (s0.setI 0xFF1) 0xFF55 .outOfBoundsAccess (.range 0xFF1 16)) = true := by decide

/-- MEM18 -/
theorem test_ld_vx_mem : after (State.put (s0.setI 0x400) 0x400 [1, 5, 6, 9]) 0xF265 (fun t => decide (t.getV 0 = 1 ∧ t.getV 1 = 5 ∧ t.getV 2 = 6 ∧ t.getV 3 = 0 ∧ t.i = 0x403)) = true := by decide

/-- MEM20 -/
theorem test_ld_vx_mem_out_of_bounds : after (s0.setI 0x1000) 0xF065 (haltedWith (s0.setI 0x1000) 0xF065 .outOfBoundsAccess (.range 0x1000 1)) = true := by decide

/-! ### Iterations (95_test_vectors.md section 2.7) -/

/-- The inputs of one iteration with no key pressed. -/
def input (num den : Nat) (quit ok : Bool) : HostInput := ⟨num, den, Vector.replicate 16 false, quit, ok⟩

/-- One iteration from a state with a word at 0x200 and this input, then a check of the next state. -/
def iterate (s : State) (w : List Byte) (inp : HostInput) (check : State → Bool) : Bool :=
  match step { State.put s 0x200 w with hostInputs := [inp] } with
  | .next t => check t
  | .fault _ | .refused _ => false

/-- SCH1 -/
theorem test_delta_is_capped : iterate (State.reset.setDt 200) [0x12, 0x00] (input 5 1 false true) (fun t =>
    decide (t.dt = 20 ∧ t.acc = 0 ∧ t.pc = 0x200 ∧ t.frameOut = some (Vector.replicate 32 0))) = true := by decide

/-- SCH4 -/
theorem test_leftover_time_stays : iterate { State.reset.setDt 200 with acc := mkRat 1 120 } [0x12, 0x00] (input 10 1 false true) (fun t =>
    decide (t.dt = 20 ∧ t.acc = mkRat 1 120)) = true := by decide

/-- SCH5 -/
theorem test_quit_after_ticks : iterate (State.reset.setDt 10) [0x12, 0x00] (input 1 30 true true) (fun t =>
    decide (t.dt = 8 ∧ t.status = .quit ∧ t.pc = 0x200 ∧ t.frameOut = none)) = true := by decide

/-- SCH8 -/
theorem test_failed_present_halts_after_step : iterate State.reset [0x60, 0x01] (input 1 60 false false) (fun t =>
    decide (t.getV 0 = 1 ∧ t.pc = 0x202 ∧ t.status = .halted ⟨.hostAdapterError, none, none, .adapter .display⟩)) = true := by decide

/-- SCH9 -/
theorem test_ticks_stand_when_the_step_faults : iterate (State.reset.setDt 5) [0x00, 0x00] (input 1 60 false true) (fun t =>
    decide (t.dt = 4 ∧ t.status = .halted ⟨.unrecognizedOpcode, some 0x200, some 0, .word 0⟩ ∧ t.frameOut = none)) = true := by decide

/-- SCH10, one iteration -/
theorem test_key_wait_does_not_stop_the_timers : iterate (State.reset.setDt 3) [0xF0, 0x0A] (input 1 60 false true) (fun t =>
    decide (t.dt = 2 ∧ t.pc = 0x200 ∧ t.status = .running)) = true := by decide

/-- log entry 5 -/
theorem test_a_time_of_zero_over_zero_is_no_time : iterate (State.reset.setDt 3) [0x12, 0x00] (input 7 0 false true) (fun t =>
    decide (t.dt = 3 ∧ t.acc = 0)) = true := by decide

/-- R291: Fx18 over ST = 0 calls `start_beep`; the tick that takes ST from 1 to 0 calls `stop_beep`. -/
theorem test_beep_calls : ((s0.setV 1 5).withFetchWord 16 0xF118).beepCalls = [.start] ∧
    ({ State.put (State.reset.setSt 1) 0x200 [0x12, 0x00] with hostInputs := [input 1 60 false true] }).beepCalls = [.stop] := by
  decide

/-- R49: bit r * 64 + c of the frame is pixel (r, c). -/
theorem test_frame_bits_are_row_major : (State.light s0 1 2).fb.frameBit 66 = true ∧
    (State.light s0 1 2).fb.frameBit 129 = false := by decide

/-- DEC1: a fetch at the last byte. -/
theorem test_fetch_past_the_end : (match step { State.reset with pc := 0xFFF, hostInputs := [input 0 1 false true] } with
    | .next t => decide (t.status = .halted ⟨.outOfBoundsAccess, some 0xFFF, none, .range 0xFFF 2⟩)
    | .fault _ | .refused _ => false) = true := by decide

/-- DEC3: no alignment fault at an odd PC. -/
theorem test_odd_pc : after { State.reset with pc := 0x201 } 0x6007 (fun t => decide (t.getV 0 = 7 ∧ t.pc = 0x203)) = true := by
  decide

/-! ### Construction (95_test_vectors.md section 2.8) -/

/-- CON1. -/
theorem test_construct : (match State.construct Params.standard none [0x12, 0x34] with
    | .ok s => decide (s.mem.getBytes s.params.fontTable 0 5 = [0xF0, 0x90, 0x90, 0x90, 0xF0] ∧
        s.mem.getBytes s.params.fontTable 0x4B 6 = [0xF0, 0x80, 0xF0, 0x80, 0x80, 0] ∧ s.mem.getBytes s.params.fontTable 0x1FF 4 = [0, 0x12, 0x34, 0] ∧
        s.pc = 0x200 ∧ s.status = .running)
    | .error _ => false) = true := by decide

/-! ### The listed memory -/

/-- Writing what an unlisted address reads as takes the cell off the list again; the list stays in order. -/
theorem test_memory_is_canonical :
    let put := Memory.set Params.standard.fontTable
    put (put [] 0x300 7) 0x300 0 = [] ∧ put (put [] 0x300 7) 0x000 0xF0 = [(0x300, 7)] ∧
      put (put [] 0x300 7) 0x001 3 = [(0x001, 3), (0x300, 7)] := by decide

/-! ### Other parameters (R8) -/

/-- A core with a stack of two entries and a blank font. -/
def smallCore : Params := ⟨2, Vector.replicate 80 0, 500⟩

/-- R31, R122: a push at depth STACK_LIMIT overflows, here at 2. -/
theorem test_stack_limit_is_a_parameter :
    let s := { State.initial smallCore with stack := [0x202, 0x204] }
    after s 0x2400 (haltedWith s 0x2400 .stackOverflow (.depth 2)) = true ∧
      after { s with stack := [0x202] } 0x2400 (fun t => decide (t.stack = [0x202, 0x202])) = true := by decide

/-- R66, R331: the glyph drawn is FONT_TABLE's, here a blank one. -/
theorem test_font_is_a_parameter :
    after (State.initial smallCore) 0xD015 (fun t => decide (t.fb = Vector.replicate 32 0 ∧ t.getV 15 = 0)) = true := by
  decide

/-! ### Witnesses: values that meet the hypotheses of each obligation, one theorem for each clause, at the edge of its range -/

/-- A running state at the last address a word fits at, holding a word, with one input lined up. -/
def atEnd (word : List Byte) (inp : HostInput) : State :=
  { State.put State.reset 4094 word with pc := 4094, hostInputs := [inp] }

theorem witness_DecodeOfEncodeGivesTheInstruction : WellFormed (.drw 15 15 15) = true := by decide

theorem witness_EncodeOfDecodedWordGivesTheWord : decode 0xFF65#16 = .ok (.ldVxMem 15) := by decide

theorem witness_StepRunsTheDecodedInstruction :
    let s := atEnd [0x60, 0x01] (input 5 1 false true)
    s.status = .running ∧ s.beforeStep.1.quit = false ∧ s.pc.toNat ≤ 4094 ∧ decode (wordAtPc s) = .ok (.ldImm 0 1) ∧
      ∃ t, exec (.ldImm 0 1) s.beforeStep.2 = .next t ∧ t.status = .running ∧ s.beforeStep.1.presentOk = true :=
  ⟨rfl, rfl, by decide, by decide, _, rfl, rfl, rfl⟩

theorem witness_StepRunsTheDecodedInstruction_present_fails :
    let s := atEnd [0x60, 0x01] (input 0 1 false false)
    s.status = .running ∧ s.beforeStep.1.quit = false ∧ s.pc.toNat ≤ 4094 ∧ decode (wordAtPc s) = .ok (.ldImm 0 1) ∧
      ∃ t, exec (.ldImm 0 1) s.beforeStep.2 = .next t ∧ t.status = .running ∧ s.beforeStep.1.presentOk = false :=
  ⟨rfl, rfl, by decide, by decide, _, rfl, rfl, rfl⟩

theorem witness_StepRunsTheDecodedInstruction_fault :
    let s := atEnd [0x00, 0xEE] (input 0 1 false true)
    s.status = .running ∧ s.beforeStep.1.quit = false ∧ s.pc.toNat ≤ 4094 ∧ decode (wordAtPc s) = .ok .ret ∧
      ∃ t, exec .ret s.beforeStep.2 = .next t ∧ t.status ≠ .running :=
  ⟨rfl, rfl, by decide, by decide, _, rfl, by decide⟩

theorem witness_StagesAToDPassTimeAndLatchKeys :
    let s := { State.reset with acc := mkRat 1 120, hostInputs := [input 5 1 false true] }
    0 ≤ s.acc ∧ s.hostInputs = input 5 1 false true :: [] := by decide

theorem witness_StagesAToDPassTimeAndLatchKeys_nothing_lined_up :
    0 ≤ State.reset.acc ∧ State.reset.hostInputs = [] := by decide

theorem witness_FetchPastTheEndHalts :
    let s := { State.reset with pc := 4095, hostInputs := [input 0 1 false true] }
    s.status = .running ∧ s.beforeStep.1.quit = false ∧ 4095 ≤ s.pc.toNat := by decide

theorem witness_IllegalWordHaltsTheCore :
    let s := atEnd [0x00, 0x00] (input 0 1 false true)
    s.status = .running ∧ s.beforeStep.1.quit = false ∧ s.pc.toNat ≤ 4094 ∧
      decode (wordAtPc s) = .error (.illegal (wordAtPc s)) := by decide

theorem witness_QuitEndsTheIterationBeforeTheStep :
    let s := atEnd [0x12, 0x00] (input 1 30 true true)
    s.status = .running ∧ s.beforeStep.1.quit = true := by decide

theorem witness_StageFPresentsTheFrameOrHalts :
    let s := atEnd [0x60, 0x01] (input 0 1 false true)
    s.status = .running ∧ s.beforeStep.1.quit = false ∧ s.beforeStep.1.presentOk = true ∧
      (match runInstruction s.beforeStep.2 with
        | .next u => decide (u.status = .running)
        | .fault _ | .refused _ => false) = true := by decide

theorem witness_StageFPresentsTheFrameOrHalts_present_fails :
    let s := atEnd [0x60, 0x01] (input 0 1 false false)
    s.status = .running ∧ s.beforeStep.1.quit = false ∧ s.beforeStep.1.presentOk = false ∧
      (match runInstruction s.beforeStep.2 with
        | .next u => decide (u.status = .running)
        | .fault _ | .refused _ => false) = true := by decide

theorem witness_OnlyRunningHasANextStep :
    { State.reset with status := .halted ⟨.stackUnderflow, some 0x200, some 0x00EE, .depth 0⟩ }.status =
      .halted ⟨.stackUnderflow, some 0x200, some 0x00EE, .depth 0⟩ ∧
    { State.reset with status := .quit }.status = .quit ∧ State.reset.status = .running := by decide

/-- Whether a step answers a next state. -/
def answersNext (s : State) : Bool :=
  match step s with
  | .next _ => true
  | .fault _ | .refused _ => false

/-- Whether a step answers a next state that is halted, and with a pc in the record or without. -/
def haltsWithPc (s : State) (hasPc : Bool) : Bool :=
  match step s with
  | .next t => match t.status with
    | .halted f => f.pc.isSome == hasPc
    | .running | .quit => false
  | .fault _ | .refused _ => false

theorem witness_OnlyStageFDrivesAFrame :
    answersNext (atEnd [0x60, 0x01] (input 0 1 false true)) = true ∧ answersNext (atEnd [0x60, 0x01] (input 0 1 true true)) = true ∧
      answersNext (atEnd [0x00, 0xEE] (input 0 1 false true)) = true := by decide

theorem witness_FaultsArePrecise : haltsWithPc (atEnd [0x00, 0xEE] (input 1 60 false true)) true = true := by decide

theorem witness_FaultsArePrecise_present_fails :
    haltsWithPc (atEnd [0x60, 0x01] (input 1 60 false false)) false = true := by decide

theorem witness_EveryInstructionFaultsExactlyInItsOwnCase_fault :
    State.reset.stack.length ≤ State.reset.params.stackLimit ∧
    (List.replicate 16 (0x202 : Word)).length ≤ State.reset.params.stackLimit ∧
    ownFault .ret State.reset = some ⟨.stackUnderflow, .depth 0⟩ ∧
    ownFault (.call 0x400) { State.reset with stack := List.replicate 16 0x202 } = some ⟨.stackOverflow, .depth 16⟩ ∧
    ownFault (.drw 0 0 15) (State.reset.setI 4082) = some ⟨.outOfBoundsAccess, .range 4082 15⟩ ∧
    ownFault (.skp 5) (State.reset.setV 5 16) = some ⟨.outOfBoundsAccess, .key 16⟩ ∧
    ownFault (.sknp 5) (State.reset.setV 5 16) = some ⟨.outOfBoundsAccess, .key 16⟩ ∧
    ownFault (.addI 1) ((State.reset.setI 0xFFFF).setV 1 1) = some ⟨.integerOverflow, .overflow 0xFFFF 1⟩ ∧
    ownFault (.ldB 1) (State.reset.setI 4094) = some ⟨.outOfBoundsAccess, .range 4094 3⟩ ∧
    ownFault (.ldMemVx 15) (State.reset.setI 4081) = some ⟨.outOfBoundsAccess, .range 4081 16⟩ ∧
    ownFault (.ldVxMem 15) (State.reset.setI 4081) = some ⟨.outOfBoundsAccess, .range 4081 16⟩ := by decide

theorem witness_EveryInstructionFaultsExactlyInItsOwnCase_none :
    ownFault .ret { State.reset with stack := [0x202] } = none ∧
    ownFault (.call 0x400) { State.reset with stack := List.replicate 15 0x202 } = none ∧
    ownFault (.drw 0 0 15) (State.reset.setI 4081) = none ∧
    ownFault (.skp 5) (State.reset.setV 5 15) = none ∧ ownFault (.sknp 5) (State.reset.setV 5 15) = none ∧
    ownFault (.addI 1) ((State.reset.setI 0xFFFE).setV 1 1) = none ∧
    ownFault (.ldB 1) (State.reset.setI 4093) = none ∧ ownFault (.ldMemVx 15) (State.reset.setI 4080) = none ∧
    ownFault (.ldVxMem 15) (State.reset.setI 4080) = none ∧ ownFault .cls State.reset = none := by decide

theorem witness_StepKeepsMemoryCanonical :
    let s := (atEnd [0xF0, 0x55] (input 0 1 false true)).setV 0 7
    s.memWf ∧ answersNext s = true := by decide

/-- A CALL at the last address, with room for one return address. -/
def lastCall : State := { atEnd [0x23, 0x00] (input 0 1 false true) with stack := List.replicate 15 4096 }

theorem witness_StepKeepsPcAndStackInBounds : FlowBounds lastCall ∧ answersNext lastCall = true := by
  refine ⟨⟨by decide, by decide, fun e he => ?_⟩, by decide⟩
  rw [List.eq_of_mem_replicate he]
  decide

/-- PC and the stack at their bounds. -/
def atTheBounds : State :=
  { State.reset with pc := 0x10FE, stack := List.replicate 16 4096, hostInputs := [input 0 1 false true] }

theorem witness_StepKeepsPcAndStackInBounds_at_the_bounds : FlowBounds atTheBounds ∧ answersNext atTheBounds = true := by
  refine ⟨⟨by decide, by decide, fun e he => ?_⟩, by decide⟩
  rw [List.eq_of_mem_replicate he]
  decide

theorem witness_StepLeavesAccBelowOneTick :
    let s := { atEnd [0x12, 0x00] (input 5 1 false true) with acc := mkRat 7 2 }
    0 ≤ s.acc ∧ answersNext s = true := by decide

/-- Each clause of the statement: an instruction that changes the element. -/
theorem witness_OnlyTheNamedInstructionsWriteEachElement :
    (∃ t, exec (.ldI 0x300) s0 = .next t ∧ t.i ≠ s0.i) ∧
    (∃ t, exec (.call 0x300) s0 = .next t ∧ t.stack ≠ s0.stack) ∧
    (∃ t, exec (.ldDtVx 1) (s0.setV 1 3) = .next t ∧ t.dt ≠ s0.dt) ∧
    (∃ t, exec (.ldStVx 1) (s0.setV 1 3) = .next t ∧ t.st ≠ s0.st) ∧
    (∃ t, exec .cls (State.light s0 0 0) = .next t ∧ t.fb ≠ (State.light s0 0 0).fb) ∧
    (∃ t, exec (.ldMemVx 0) ((s0.setV 0 9).setI 4095) = .next t ∧ t.readByte 4095 ≠ s0.readByte 4095) ∧
    (∃ t, exec (.rnd 1 0xFF) { s0 with randIn := [3] } = .next t ∧ t.randIn ≠ [3]) :=
  ⟨⟨_, rfl, by decide⟩, ⟨_, rfl, by decide⟩, ⟨_, rfl, by decide⟩, ⟨_, rfl, by decide⟩, ⟨_, rfl, by decide⟩,
    ⟨_, rfl, by decide⟩, ⟨_, rfl, by decide⟩⟩

/-- Two states that agree on what 8125 reads and differ elsewhere. -/
theorem witness_NoRegisterOutsideTheTableIsReadOrWritten :
    let s := (s0.setV 1 5).setV 2 3
    let s' := (s.setV 7 0xFF).setV 15 0xFF
    (∀ r ∈ readsV (.sub 1 2), s'.getV r = s.getV r) ∧ s' = { s with v := s'.v } ∧
      (∃ t, exec (.sub 1 2) s = .next t) ∧ ∃ t', exec (.sub 1 2) s' = .next t' :=
  ⟨by decide, rfl, ⟨_, rfl⟩, ⟨_, rfl⟩⟩

theorem witness_CallPushesTheReturnAddressOrOverflows :
    { s0 with stack := List.replicate 15 0x202 }.stack.length < s0.params.stackLimit ∧
    { s0 with stack := List.replicate 16 0x202 }.stack.length = s0.params.stackLimit := by decide

theorem witness_ReturnPopsTheStackOrUnderflows :
    { s0 with stack := [0x202, 0x1000] }.stack = [0x202] ++ [0x1000] ∧ s0.stack = [] := by decide

theorem witness_ReturnUndoesCall : { s0 with stack := List.replicate 15 0x202 }.stack.length < s0.params.stackLimit := by decide

theorem witness_SkipsOnAKey : ((s0.setV 5 15).getV 5).toNat < 16 ∧ 15 < ((s0.setV 5 16).getV 5).toNat := by decide

theorem witness_SameRegisterForms : (14 : Reg) ≠ 15 := by decide

theorem witness_RandomWritesOneFreshDrawUnderTheMask :
    { s0 with randIn := [0xA7] }.randIn = 0xA7 :: [] ∧ s0.randIn = [] := by decide

theorem witness_AddToIWritesTheExactSumOrOverflows :
    ((s0.setI 0xFF7F).setV 1 0x80).i.toNat + (((s0.setI 0xFF7F).setV 1 0x80).getV 1).toNat ≤ 0xFFFF ∧
    ((s0.setI 0xFF80).setV 1 0x80).i.toNat + (((s0.setI 0xFF80).setV 1 0x80).getV 1).toNat > 0xFFFF := by decide

theorem witness_BcdDigitsGoToMemory : (s0.setI 4093).i.toNat + 3 ≤ 4096 ∧ (s0.setI 4094).i.toNat + 3 > 4096 := by decide

theorem witness_StoreRegistersWritesTheBlockAndAdvancesI :
    (s0.setI 4080).i.toNat + (15 : Reg).val + 1 ≤ 4096 ∧ (15 : Reg) ≤ 15 ∧
    (s0.setI 4081).i.toNat + (15 : Reg).val + 1 > 4096 := by decide

theorem witness_LoadRegistersReadsTheBlockAndAdvancesI :
    (s0.setI 4095).i.toNat + (0 : Reg).val + 1 ≤ 4096 ∧ (s0.setI 4096).i.toNat + (0 : Reg).val + 1 > 4096 := by decide

theorem witness_LoadAfterStoreRestoresTheRegisters :
    (s0.setI 4081).i.toNat + (14 : Reg).val + 1 ≤ 4096 ∧ (14 : Reg) < 15 := by decide

/-- In bounds at the last address, with a covered pixel that is set and one that is not covered. -/
theorem witness_DrawInvertsTheCoveredPixelsAndReportsCollision :
    let s := State.light ((State.put s0 4081 (List.replicate 15 0x80)).setI 4081) 0 0
    (15 : Nat) ≤ 15 ∧ s.i.toNat + 15 ≤ 4096 ∧
      (Covered s (s.getV 0).toNat (s.getV 1).toNat 15 0 0 ∧ s.fb.pixel 0 0 = true) ∧
      ¬ Covered s (s.getV 0).toNat (s.getV 1).toNat 15 31 0 := by
  refine ⟨by decide, by decide, ⟨⟨0, by decide, 0, by decide, by decide, by decide, by decide⟩, by decide⟩, ?_⟩
  rintro ⟨k, hk, b, hb, -, hr, -⟩
  have hr : 31 = (0 + k) % 32 := hr
  omega

/-- No collision: nothing is lit. -/
theorem witness_DrawInvertsTheCoveredPixelsAndReportsCollision_none :
    let s := (State.put s0 4095 [0xFF]).setI 4095
    (1 : Nat) ≤ 15 ∧ s.i.toNat + 1 ≤ 4096 ∧
      ¬ ∃ r c, Covered s (s.getV 0).toNat (s.getV 1).toNat 1 r c ∧ s.fb.pixel r c = true := by
  refine ⟨by decide, by decide, ?_⟩
  rintro ⟨r, c, -, h⟩
  have hfb : ((State.put s0 4095 [0xFF]).setI 4095).fb = FrameBuffer.cleared := rfl
  rw [hfb] at h
  simp at h

/-- n = 0 one byte past the end of memory (DSP5), and 15 rows that end one byte past it. -/
theorem witness_DrawInvertsTheCoveredPixelsAndReportsCollision_out_of_bounds :
    (0 : Nat) ≤ 15 ∧ (s0.setI 4097).i.toNat + 0 > 4096 ∧ (15 : Nat) ≤ 15 ∧ (s0.setI 4082).i.toNat + 15 > 4096 := by decide

theorem witness_DrawingTwiceRestoresTheFrameBuffer : (List.replicate 15 (0xFF : Byte)).length ≤ 15 := by decide

theorem witness_KeyWaitStoresTheLeastKeyOrHolds :
    (({ s0 with keys := pressed 15 } : State).keys[(15 : Reg)] = true ∧
      ∀ j : Reg, j < 15 → ({ s0 with keys := pressed 15 } : State).keys[j] = false) ∧
    ∀ k : Reg, s0.keys[k] = false := by decide

theorem witness_WaitingForAKeyIsACompleteStep :
    let s := atEnd [0xFF, 0x0A] (input 1 60 false true)
    s.status = .running ∧ s.beforeStep.1.quit = false ∧ s.beforeStep.1.presentOk = true ∧ s.pc.toNat ≤ 4094 ∧
      wordAtPc s = 0xF#4 ++ field4 15 ++ 0x0A#8 ∧ ∀ k : Reg, s.beforeStep.1.keys[k] = false := by decide

theorem witness_TickDecrementsBothTimers :
    ((s0.setDt 1).setSt 255).dt.toNat > 0 ∧ ((s0.setDt 1).setSt 255).st.toNat > 0 ∧ s0.dt.toNat = 0 ∧ s0.st.toNat = 0 := by
  decide

theorem witness_StageCIsTheCatchUpLoop :
    (0 ≤ ({ s0 with acc := 1 / 61 } : State).acc ∧ ({ s0 with acc := 1 / 61 } : State).acc < 1 / 60) ∧
    (0 ≤ ({ s0 with acc := 1 / 60 } : State).acc ∧ 1 / 60 ≤ ({ s0 with acc := 1 / 60 } : State).acc ∧
      ({ s0 with acc := 1 / 60 } : State).acc < 1 / 60 + 3) := by
  norm_num

/-- A run of one step that writes no timer. -/
theorem witness_TicksDependOnTheSumOfTheDeltasOnly_run :
    let s := atEnd [0x60, 0x01] (input 5 1 false true)
    s.acc = 0 ∧ ∃ t, TimedRun [5] s t := by
  refine ⟨rfl, ?_⟩
  obtain ⟨u, hu⟩ : ∃ u, step (atEnd [0x60, 0x01] (input 5 1 false true)) = .next u := ⟨_, rfl⟩
  have hd : decode (wordAtPc (atEnd [0x60, 0x01] (input 5 1 false true))) = .ok (.ldImm 0 1) := by decide
  refine ⟨u, ?_, fun x => ?_, u, hu, rfl⟩
  · show (5 : Rat) = (5 : Nat) / (1 : Nat)
    norm_num
  · rw [hd]
    simp

theorem witness_TicksDependOnTheSumOfTheDeltasOnly :
    (s0.setDt 200).acc = 0 ∧ ∀ d ∈ [(1 / 120 : Rat), 5, 0, 1 / 120], 0 ≤ d := by
  refine ⟨rfl, ?_⟩
  norm_num

/-- Fx18 over ST = 0 at the last address, and over ST = 1 that the tick takes to 0; a word that is no Fx18; a quit. -/
theorem witness_BeepCallsFollowTheSoundTimer :
    let s := (atEnd [0xF1, 0x18] (input 1 60 false true)).setV 1 5
    s.beforeStep.1.quit = false ∧ s.pc.toNat ≤ 4094 ∧ decode (wordAtPc s) = .ok (.ldStVx 1) ∧
      (s.setSt 1).beforeStep.2.st = 0 ∧ (atEnd [0x60, 0x01] (input 0 1 true true)).beforeStep.1.quit = true ∧
      4094 < ({ s with pc := 4095 } : State).pc.toNat ∧
      decode (wordAtPc (atEnd [0x60, 0x01] (input 0 1 false true))) = .ok (.ldImm 0 1) := by decide

/-- A rise, a fall, and a write that keeps ST nonzero. -/
theorem witness_TimerTransfers :
    (s0.st = 0 ∧ (s0.setV 1 5).getV 1 ≠ 0) ∧ ((s0.setSt 5).st ≠ 0 ∧ (s0.setSt 5).getV 1 = 0) ∧
      (((s0.setSt 5).setV 1 3).st = 0 ↔ ((s0.setSt 5).setV 1 3).getV 1 = 0) := by decide

theorem witness_PortsCarryTheStatedCodes : (2047 : Fin 2048).val = (31 : Fin 32).val * 64 + (63 : Fin 64).val := by decide

theorem witness_MemoryRoundTripOfOneByte : 4095 < 4096 ∧ 4096 ≤ 4096 := by decide

/-- A block that ends at 4096, the empty access at 4096, and one byte more. -/
theorem witness_MemoryAccessIsCheckedAsAWhole :
    4093 + 3 ≤ 4096 ∧ 4096 + 0 ≤ 4096 ∧ 4095 + 2 > 4096 ∧ 4094 + [(1 : Byte), 2].length ≤ 4096 ∧
      4095 + [(1 : Byte), 2].length > 4096 := by decide

/-- A fetch inside the block, one that straddles its end, and one at a single byte written, up to the last address. -/
theorem witness_FetchSeesEveryEarlierWrite :
    (∃ t, s0.memWrite 4093 [0x12, 0x34, 0x56] = .ok t) ∧ (4094 : Word).toNat ≤ 4094 ∧
      (∃ t, s0.memWrite 0x400 [0x12, 0x34] = .ok t) ∧ (0x401 : Word).toNat ≤ 4094 ∧
      ∃ t, s0.memWrite 4095 [0x12] = .ok t :=
  ⟨⟨_, rfl⟩, by decide, ⟨_, rfl⟩, by decide, ⟨_, rfl⟩⟩

theorem witness_ResetMeetsTheInvariants_with_a_rom :
    State.construct Params.standard none [0x12, 0x00] = .ok { State.reset with mem := [(0x200, 0x12)] } := by decide

theorem witness_ConstructionLoadsTheRomAt0x200 :
    (List.replicate 3584 (0xA5 : Byte)).length ≤ 3584 ∧ (List.replicate 3585 (0xA5 : Byte)).length > 3584 ∧
      ([] : List Byte).length ≤ 3584 := by
  refine ⟨?_, ?_, by decide⟩
  · rw [List.length_replicate]
  · rw [List.length_replicate]; decide

end Sys2Proof.Tests
end

section
/-! PROOFS. Family 10_state.md, part 1: which instruction writes which element (R24, R33, R35, R37, R39, R41, R48, R68). -/

namespace Sys2Proof.Machine

open Sys2Proof.Stated

/-- Settles O20: a fault writes STATUS alone, and each instruction's `Effect` names the fields it updates. -/
theorem onlyTheNamedInstructionsWriteEachElement : Obligations.OnlyTheNamedInstructionsWriteEachElement := by
  intro i s t h
  obtain ⟨r, rfl⟩ | he := exec_effect i s t h
  · simp
  cases i
  case ret =>
    obtain ⟨below, top, -, rfl⟩ := he
    simp [State.readByte]
  case call | ldB | ldMemVx =>
    obtain ⟨-, he⟩ := he
    rw [he]
    simp [State.readByte]
  case skp | sknp | seImm | sneImm | seReg | sneReg =>
    obtain ⟨he, -⟩ := he
    rw [he]
    simp [State.readByte]
  case ldVxK =>
    obtain rfl | he := he
    · simp
    · rw [he]
      simp [State.readByte]
  all_goals
    rw [he]
    simp [State.readByte]

variable {i : Instr} {s t : State}

/-- No instruction changes a parameter (R8). -/
theorem exec_params (h : exec i s = .next t) : t.params = s.params := by
  obtain ⟨-, -, -, -, -, -, -, -, -, -, hparams, -⟩ := onlyTheNamedInstructionsWriteEachElement i s t h
  exact hparams

/-- No instruction changes ACC (R41). -/
theorem exec_acc (h : exec i s = .next t) : t.acc = s.acc := by
  obtain ⟨-, -, -, -, -, -, -, -, hacc, -⟩ := onlyTheNamedInstructionsWriteEachElement i s t h
  exact hacc

/-- An instruction that is no RET and no CALL leaves the stack (R33). -/
theorem exec_stack (h : exec i s = .next t) : t.stack = s.stack ∨ i = .ret ∨ ∃ nnn, i = .call nnn := by
  obtain ⟨-, hstack, -⟩ := onlyTheNamedInstructionsWriteEachElement i s t h
  exact or_iff_not_imp_left.mpr hstack

end Sys2Proof.Machine
end

section
/-! PROOFS. Family 10_state.md, part 2: a step has a next state exactly from Running (R42), and keeps the bounds of PC and the
stack (R30, R102) and of ACC (R41). -/

namespace Sys2Proof.Machine

open Sys2Proof.Stated

/-! ### The next step -/

theorem step_running {s : State} (h : s.status = .running) : step s = runIteration s := by
  simp [step, h]

/-- The instruction cycle answers a next state in each of its cases. -/
theorem runInstruction_answers_next (s : State) : ∃ t, runInstruction s = .next t := by
  obtain ⟨-, h⟩ | ⟨-, ⟨e, -, h⟩ | ⟨i, -, h⟩⟩ := runInstruction_cases s
  · exact ⟨_, h⟩
  · exact ⟨_, h⟩
  · rw [h]
    exact exec_answers_next i s

/-- An iteration answers a next state, whatever the host presents. -/
theorem runIteration_answers_next (s : State) : ∃ t, runIteration s = .next t := by
  obtain ⟨u, hu⟩ := runInstruction_answers_next s.beforeStep.2
  cases hq : s.beforeStep.1.quit
  · exact ⟨u.present s.beforeStep.1.presentOk, by simp [runIteration, hq, hu]⟩
  · exact ⟨s.beforeStep.2.quitNow, by simp [runIteration, hq]⟩

/-- Settles O12: an iteration always answers, and `step` runs one exactly when STATUS is Running. -/
theorem onlyRunningHasANextStep : Obligations.OnlyRunningHasANextStep := by
  intro s
  refine ⟨⟨?_, ?_⟩, fun f hf => by simp [step, hf], fun hq => by simp [step, hq]⟩
  · rintro ⟨t, ht⟩
    exact (step_cases s t ht).1
  · intro hr
    rw [step_running hr]
    exact runIteration_answers_next s

/-! ### What a step does to the fields its stages (e) and (f) leave alone -/

variable {i : Instr} {s t u : State}

/-- The instruction cycle halts and changes nothing else, or executes one instruction fetched inside memory. -/
theorem runInstruction_eq_next (h : runInstruction s = .next u) :
    (∃ f, u = s.halt f) ∨ (s.pc.toNat + 2 ≤ memSize ∧ ∃ i, exec i s = .next u) := by
  obtain ⟨-, hc⟩ | ⟨hpc, ⟨e, -, hc⟩ | ⟨i, -, hc⟩⟩ := runInstruction_cases s <;> rw [hc] at h
  · exact .inl ⟨_, (Host.Outcome.next.inj h).symm⟩
  · exact .inl ⟨_, (Host.Outcome.next.inj h).symm⟩
  · exact .inr ⟨hpc, i, h⟩

/-- A step is stages (a) to (d), then at most one instruction fetched inside memory, then a change of STATUS and `frame_out`
alone (R293). -/
theorem step_eq_next (h : step s = .next t) :
    ∃ u, (u = s.beforeStep.2 ∨ s.pc.toNat + 2 ≤ memSize ∧ ∃ i, exec i s.beforeStep.2 = .next u) ∧
      t = { u with status := t.status, frameOut := t.frameOut } := by
  obtain ⟨-, ⟨-, rfl⟩ | ⟨-, u, hu, rfl⟩⟩ := step_cases s t h
  · exact ⟨_, .inl rfl, rfl⟩
  · obtain ⟨f, rfl⟩ | ⟨hpc, hi⟩ := runInstruction_eq_next hu
    · refine ⟨_, .inl rfl, ?_⟩
      rw [State.present_frame]
      rfl
    · exact ⟨u, .inr ⟨by simpa using hpc, hi⟩, State.present_frame u _⟩

/-- No step changes a parameter (R8). -/
theorem step_params (h : step s = .next t) : t.params = s.params := by
  obtain ⟨u, hu, ht⟩ := step_eq_next h
  have htu : t.params = u.params := by rw [ht]
  obtain rfl | ⟨-, i, hi⟩ := hu
  · rw [htu, State.beforeStep_params]
  · rw [htu, exec_params hi, State.beforeStep_params]

/-- ACC changes in stages (a) to (c) alone (R41). -/
theorem step_acc (h : step s = .next t) : t.acc = s.beforeStep.2.acc := by
  obtain ⟨u, hu, ht⟩ := step_eq_next h
  have htu : t.acc = u.acc := by rw [ht]
  obtain rfl | ⟨-, i, hi⟩ := hu
  · exact htu
  · rw [htu, exec_acc hi]

/-! ### ACC -/

/-- Stage (c) spends every whole tick (R296). -/
theorem State.catchUp_accBounds (h : 0 ≤ s.acc) : AccBounds s.catchUp := by
  obtain ⟨hle, hlt⟩ := ticksDue_spec s.acc h
  rw [add_div] at hlt
  rw [AccBounds, State.catchUp_acc, spendTicks_eq]
  exact ⟨sub_nonneg.mpr hle, sub_lt_iff_lt_add'.mpr hlt⟩

theorem State.accumulate_acc_nonneg (d : Rat) (hd : 0 ≤ d) (h : 0 ≤ s.acc) : 0 ≤ (s.accumulate d).acc := by
  rw [State.accumulate_acc, addSeconds_eq]
  exact add_nonneg h (capDelta_nonneg d hd)

theorem State.takeInput_acc (s : State) : s.takeInput.2.acc = s.acc := by
  rw [State.takeInput_frame]

/-- Settles O18: stage (c) leaves ACC in its bounds, and nothing later in the step changes it. -/
theorem stepLeavesAccBelowOneTick : Obligations.StepLeavesAccBelowOneTick := by
  intro s t hacc h
  have hbefore : AccBounds s.beforeStep.2 :=
    State.catchUp_accBounds
      (State.accumulate_acc_nonneg _ (deltaIn_nonneg _) (hacc.trans_eq s.takeInput_acc.symm))
  rwa [AccBounds, step_acc h]

/-! ### PC and the stack -/

theorem zext16_toNat_lt (nnn : BitVec 12) : (zext16 nnn).toNat < 4096 := by
  have := nnn.isLt
  rw [zext16, BitVec.toNat_setWidth_of_le (by omega)]
  exact this

theorem offsetTarget_toNat_le (v : Byte) (nnn : BitVec 12) : (offsetTarget v nnn).toNat ≤ 0x10FE := by
  have := v.isLt
  have := nnn.isLt
  rw [offsetTarget, BitVec.toNat_ofNat]
  omega

/-- Two bytes past a fetched word is no further than the end of memory. -/
theorem pc_add_two_toNat (hpc : s.pc.toNat + 2 ≤ memSize) : (s.pc + 2).toNat ≤ 4096 := by
  unfold memSize at hpc
  bv_omega

theorem pc_add_four_toNat (hpc : s.pc.toNat + 2 ≤ memSize) : (s.pc + 4).toNat ≤ 4098 := by
  unfold memSize at hpc
  bv_omega

/-- An instruction fetched inside memory leaves PC at most at the largest target of Bnnn (R102). -/
theorem exec_pc_le (hpc : s.pc.toNat + 2 ≤ memSize) (hstack : ∀ e ∈ s.stack, e.toNat ≤ 4096)
    (h : exec i s = .next t) : t.pc.toNat ≤ 0x10FE := by
  have hhold : s.pc.toNat ≤ 0x10FE := (Nat.le_of_add_right_le hpc).trans (by decide)
  have hnext : (s.pc + 2).toNat ≤ 0x10FE := (pc_add_two_toNat hpc).trans (by decide)
  have hskip : (s.pc + 4).toNat ≤ 0x10FE := (pc_add_four_toNat hpc).trans (by decide)
  obtain ⟨r, rfl⟩ | he := exec_effect i s t h
  · exact hhold
  cases i
  case ret =>
    obtain ⟨below, top, hs, rfl⟩ := he
    exact (hstack top (by simp [hs])).trans (by decide)
  case jp nnn =>
    rw [he]
    exact (zext16_toNat_lt nnn).le.trans (by decide)
  case call nnn =>
    obtain ⟨-, rfl⟩ := he
    exact (zext16_toNat_lt nnn).le.trans (by decide)
  case jpV0 nnn =>
    rw [he]
    exact offsetTarget_toNat_le _ nnn
  case skp | sknp | seImm | sneImm | seReg | sneReg =>
    obtain ⟨-, hpc' | hpc'⟩ := he <;> rw [hpc']
    · exact hnext
    · exact hskip
  case ldVxK =>
    obtain rfl | he := he
    · exact hhold
    · rw [he]
      exact hnext
  case ldB | ldMemVx =>
    obtain ⟨-, he⟩ := he
    rw [he]
    exact hnext
  all_goals
    rw [he]
    exact hnext

/-- An instruction fetched inside memory keeps the stack within its limit and its return addresses within memory: only CALL
grows it, by the address after the CALL, and only RET shrinks it (R30). -/
theorem exec_keeps_stack_bounds (hpc : s.pc.toNat + 2 ≤ memSize) (h : exec i s = .next t)
    (hb : s.stack.length ≤ s.params.stackLimit ∧ ∀ e ∈ s.stack, e.toNat ≤ 4096) :
    t.stack.length ≤ s.params.stackLimit ∧ ∀ e ∈ t.stack, e.toNat ≤ 4096 := by
  obtain ⟨hlen, haddr⟩ := hb
  obtain hsame | hwriter := exec_stack h
  · rw [hsame]
    exact ⟨hlen, haddr⟩
  obtain ⟨r, rfl⟩ | he := exec_effect i s t h
  · exact ⟨hlen, haddr⟩
  obtain rfl | ⟨nnn, rfl⟩ := hwriter
  · obtain ⟨below, top, hs, rfl⟩ := he
    rw [hs, List.length_append] at hlen
    exact ⟨(Nat.le_add_right _ _).trans hlen, fun e hmem => haddr e (by simp [hs, hmem])⟩
  · obtain ⟨hroom, rfl⟩ := he
    refine ⟨by simpa using hroom, fun e hmem => ?_⟩
    obtain hmem | rfl : e ∈ s.stack ∨ e = s.pc + 2 := by simpa using hmem
    · exact haddr e hmem
    · exact pc_add_two_toNat hpc

theorem exec_keeps_flowBounds (hpc : s.pc.toNat + 2 ≤ memSize) (h : exec i s = .next t) (hb : FlowBounds s) :
    FlowBounds t := by
  obtain ⟨-, hstack⟩ := hb
  rw [FlowBounds, exec_params h]
  exact ⟨exec_pc_le hpc hstack.2 h, exec_keeps_stack_bounds hpc h hstack⟩

theorem flowBounds_beforeStep : FlowBounds s.beforeStep.2 ↔ FlowBounds s := by
  simp [FlowBounds]

/-- Settles O17: of a step's stages only the instruction touches PC and the stack, and it keeps their bounds. -/
theorem stepKeepsPcAndStackInBounds : Obligations.StepKeepsPcAndStackInBounds := by
  intro s t h
  refine ⟨fun hb => ?_, step_params h⟩
  obtain ⟨u, hu, ht⟩ := step_eq_next h
  have hbefore : FlowBounds s.beforeStep.2 := flowBounds_beforeStep.mpr hb
  have hbu : FlowBounds u := by
    obtain rfl | ⟨hpc, i, hi⟩ := hu
    · exact hbefore
    · exact exec_keeps_flowBounds (by rwa [State.beforeStep_pc]) hi hbefore
  rw [ht]
  exact hbu

end Sys2Proof.Machine
end

section
/-! PROOFS. Family 10_state.md, part 3: the registers an instruction reads and writes (R22). Two runs of an instruction from
states that differ in V alone are compared operation by operation: `WritesAlike` says that both have written the same registers
so far, and each operation of the model keeps it. -/

namespace Sys2Proof.Machine

open Sys2Proof.Stated

/-! ### States with other registers -/

/-- The state with other general registers. -/
def State.withV (s : State) (w : Vector Byte 16) : State := { s with v := w }

/-- A state update that neither reads nor writes a general register. -/
def IgnoresV (f : State → State) : Prop := ∀ s w, f (s.withV w) = (f s).withV w

/-- The state `a'` reached from `s'` and the state `a` reached from `s` differ in V alone, and the registers written on the way
are of the list `W` and the same ones, with the same values, in both. -/
structure WritesAlike (W : List Reg) (s s' a a' : State) : Prop where
  outside : ∀ r, r ∉ W → a.getV r = s.getV r
  inside : ∀ r ∈ W, a'.getV r = a.getV r ∨ (a.getV r = s.getV r ∧ a'.getV r = s'.getV r)
  rest : a' = a.withV a'.v

/-- Both results are the same fault, or states with the same writes. -/
def ResultsAlike (W : List Reg) (s s' : State) : Except Raise State → Except Raise State → Prop
  | .ok a, .ok a' => WritesAlike W s s' a a'
  | .error r, .error r' => r = r'
  | _, _ => False

/-- Both outcomes are next states, with the same writes. -/
def OutcomesAlike (W : List Reg) (s s' : State) (o o' : Host.Outcome State Fault Refusal) : Prop :=
  ∃ t t', o = .next t ∧ o' = .next t' ∧ WritesAlike W s s' t t'

variable {W : List Reg} {s s' a a' : State}

/-! ### The operations keep the writes alike -/

theorem WritesAlike.refl (hs : s' = s.withV s'.v) : WritesAlike W s s' s s' :=
  ⟨fun _ _ => rfl, fun _ _ => .inr ⟨rfl, rfl⟩, hs⟩

/-- Writing one byte to one register of the list. -/
theorem WritesAlike.setV (h : WritesAlike W s s' a a') {x : Reg} (hx : x ∈ W) (b : Byte) :
    WritesAlike W s s' (a.setV x b) (a'.setV x b) where
  outside r hr := by
    rw [State.getV_setV_other _ _ _ _ (ne_of_mem_of_not_mem hx hr).symm]
    exact h.outside r hr
  inside r hr := by
    by_cases hrx : r = x
    · subst hrx
      simp
    · rw [State.getV_setV_other _ _ _ _ hrx, State.getV_setV_other _ _ _ _ hrx]
      exact h.inside r hr
  rest := by
    rw [h.rest]
    rfl

/-- Writing a block of bytes to registers of the list. -/
theorem WritesAlike.loadRegs (bs : List Byte) (k : Nat) (h : WritesAlike W s s' a a')
    (hW : ∀ r : Reg, k ≤ r.val → r.val < k + bs.length → r ∈ W) :
    WritesAlike W s s' (a.loadRegs k bs) (a'.loadRegs k bs) := by
  induction bs generalizing k a a' with
  | nil => exact h
  | cons b rest ih =>
    rw [List.length_cons] at hW
    simp only [State.loadRegs]
    refine ih (k + 1) ?_ fun r hk hr => hW r (by omega) (by omega)
    split
    · exact h.setV (hW _ le_rfl (by simp)) b
    · exact h

/-- An update that ignores V leaves every register. -/
theorem IgnoresV.v_eq {f : State → State} (hf : IgnoresV f) (s : State) : (f s).v = s.v := by
  have h : f s = (f s).withV s.v := hf s s.v
  rw [h]
  rfl

theorem WritesAlike.update (h : WritesAlike W s s' a a') {f : State → State} (hf : IgnoresV f) :
    WritesAlike W s s' (f a) (f a') where
  outside r hr := by
    simpa [State.getV, hf.v_eq] using h.outside r hr
  inside r hr := by
    simpa [State.getV, hf.v_eq] using h.inside r hr
  rest := by
    rw [hf.v_eq, ← hf, ← h.rest]

theorem WritesAlike.next (h : WritesAlike W s s' a a') : WritesAlike W s s' a.next a'.next :=
  h.update fun _ _ => rfl

/-! ### Operations that can fault -/

/-- The same result, given to two continuations that write alike. -/
theorem ResultsAlike.map {α : Type} (e : Except Raise α) {f f' : α → State}
    (h : ∀ x, e = .ok x → WritesAlike W s s' (f x) (f' x)) : ResultsAlike W s s' (e.map f) (e.map f') := by
  cases e with
  | ok x => exact h x rfl
  | error r => rfl

theorem ResultsAlike.update {e e' : Except Raise State} (h : ResultsAlike W s s' e e') {f : State → State}
    (hf : IgnoresV f) : ResultsAlike W s s' (e.map f) (e'.map f) := by
  match e, e', h with
  | .ok _, .ok _, h => exact WritesAlike.update h hf
  | .error _, .error _, rfl => rfl

/-- Both instructions end alike: by their writes, or by the same fault at the same PC. -/
theorem ResultsAlike.commit (hs : s' = s.withV s'.v) (c : Word) {e e' : Except Raise State}
    (h : ResultsAlike W s s' e e') : OutcomesAlike W s s' (s.commit c e) (s'.commit c e') := by
  match e, e', h with
  | .ok t, .ok t', h => exact ⟨t, t', rfl, rfl, h⟩
  | .error r, .error _, rfl =>
    exact ⟨_, _, rfl, rfl, (WritesAlike.refl hs).update (f := fun u => u.haltAt c r) fun _ _ => rfl⟩

theorem WritesAlike.outcome (h : WritesAlike W s s' a a') : OutcomesAlike W s s' (.next a) (.next a') :=
  ⟨a, a', rfl, rfl, h⟩

variable (s) (w : Vector Byte 16)

theorem memWrite_alike (addr : Nat) (bs : List Byte) :
    ResultsAlike W s (s.withV w) (s.memWrite addr bs) ((s.withV w).memWrite addr bs) := by
  unfold State.memWrite
  split
  · exact (WritesAlike.refl rfl).update
      (f := fun u => { u with mem := u.mem.setBytes u.params.fontTable addr bs }) fun _ _ => rfl
  · rfl

theorem push_alike (e : Word) : ResultsAlike W s (s.withV w) (s.push e) ((s.withV w).push e) := by
  by_cases h : s.stack.length < s.params.stackLimit
  · rw [s.push_ok e h, (s.withV w).push_ok e h]
    exact (WritesAlike.refl rfl).update (f := fun u => { u with stack := u.stack ++ [e] }) fun _ _ => rfl
  · rw [s.push_error e (not_lt.mp h), (s.withV w).push_error e (not_lt.mp h)]
    rfl

theorem regBlock_congr (x : Reg) (h : ∀ r ≤ x, (s.withV w).getV r = s.getV r) :
    (s.withV w).regBlock x = s.regBlock x := by
  refine List.ext_getElem (by simp) fun k hk _ => ?_
  rw [State.getElem_regBlock, State.getElem_regBlock]
  rw [State.length_regBlock] at hk
  exact h _ (Fin.mk_le_of_le_val (by omega))

/-! ### The instructions -/

theorem draw_withV : (s.withV w).draw = (s.draw.1, s.draw.2.withV w) := by
  cases h : s.randIn with
  | nil => rw [s.draw_free h, (s.withV w).draw_free h]; rfl
  | cons b rest => rw [s.draw_lined_up b rest h, (s.withV w).draw_lined_up b rest h]; rfl

theorem length_of_memRead_eq_ok {addr n : Nat} {bs : List Byte} (h : s.memRead addr n = .ok bs) : bs.length = n := by
  unfold State.memRead at h
  split at h
  · cases h
    exact Memory.length_getBytes _ _ _
  · cases h

/-- An instruction run from two states that agree on the registers it reads writes the same registers in both, all of them of its
"writes" column, and everything else alike (R22). -/
theorem exec_alike (i : Instr) (hr : ∀ r ∈ readsV i, (s.withV w).getV r = s.getV r) :
    OutcomesAlike (writesV i) s (s.withV w) (exec i s) (exec i (s.withV w)) := by
  have base : WritesAlike (writesV i) s (s.withV w) s (s.withV w) := .refl rfl
  cases i
  case cls => exact (base.update (f := (·.setFb FrameBuffer.cleared)) fun _ _ => rfl).next.outcome
  case ldI nnn => exact (base.update (f := (·.setI (zext16 nnn))) fun _ _ => rfl).next.outcome
  case jp nnn => exact (base.update (f := (·.jump (zext16 nnn))) fun _ _ => rfl).outcome
  case jpV0 nnn =>
    simp only [readsV, List.forall_mem_cons] at hr
    simp only [exec, execJpV0, hr]
    exact (base.update (f := (·.jump _)) fun _ _ => rfl).outcome
  case call nnn =>
    exact ((push_alike s w (s.pc + 2)).update (f := (·.jump (zext16 nnn))) fun _ _ => rfl).commit rfl _
  case ret =>
    refine ResultsAlike.commit rfl _ ?_
    obtain hempty | ⟨below, top, hs⟩ := List.eq_nil_or_concat' s.stack
    · rw [s.pop_error hempty, (s.withV w).pop_error hempty]
      rfl
    · rw [s.pop_ok below top hs, (s.withV w).pop_ok below top hs]
      exact base.update (f := fun u => State.jump { u with stack := below } top) fun _ _ => rfl
  case seImm | sneImm | seReg | sneReg =>
    simp only [readsV, List.forall_mem_cons] at hr
    simp only [exec, execSeImm, execSneImm, execSeReg, execSneReg, hr]
    exact (base.update (f := (·.skip _)) fun _ _ => rfl).outcome
  case skp x | sknp x =>
    simp only [readsV, List.forall_mem_cons] at hr
    simp only [exec, execSkp, execSknp, hr]
    refine ResultsAlike.commit rfl _ (.map (s.keyPressed (s.getV x)) fun p _ => ?_)
    exact base.update (f := (·.skip _)) fun _ _ => rfl
  case ldImm x nn => exact (base.setV (by simp [writesV]) nn).next.outcome
  case ldVxDt x => exact (base.setV (by simp [writesV]) s.dt).next.outcome
  case addImm | ldReg | orReg | andReg | xorReg =>
    simp only [readsV, List.forall_mem_cons] at hr
    simp only [exec, execAddImm, execLdReg, execOrReg, execAndReg, execXorReg, hr]
    exact (base.setV (by simp [writesV]) _).next.outcome
  case addReg | sub | subn | shr | shl =>
    simp only [readsV, List.forall_mem_cons] at hr
    simp only [exec, execAddReg, execSub, execSubn, execShr, execShl, State.getV_setV, hr]
    exact ((base.setV (by simp [writesV]) _).setV (by simp [writesV]) _).next.outcome
  case rnd x nn =>
    have hdraw : IgnoresV (·.draw.2) := fun u v => congrArg Prod.snd (draw_withV u v)
    simp only [exec, execRnd, congrArg Prod.fst (draw_withV s w)]
    exact ((base.update hdraw).setV (by simp [writesV]) _).next.outcome
  case ldVxK x =>
    have hkeys : (s.withV w).keys = s.keys := rfl
    simp only [exec, execLdVxK, hkeys]
    split
    · exact (base.setV (by simp [writesV]) _).next.outcome
    · exact base.outcome
  case ldDtVx x =>
    simp only [readsV, List.forall_mem_cons] at hr
    simp only [exec, execLdDtVx, hr]
    exact (base.update (f := (·.setDt _)) fun _ _ => rfl).next.outcome
  case ldStVx x =>
    simp only [readsV, List.forall_mem_cons] at hr
    simp only [exec, execLdStVx, hr]
    exact (base.update (f := (·.setSt _)) fun _ _ => rfl).next.outcome
  case ldF x =>
    simp only [readsV, List.forall_mem_cons] at hr
    simp only [exec, execLdF, hr]
    exact (base.update (f := (·.setI _)) fun _ _ => rfl).next.outcome
  case addI x =>
    simp only [readsV, List.forall_mem_cons] at hr
    simp only [exec, execAddI, hr]
    refine ResultsAlike.commit rfl _ (.map (addToI s.i (s.getV x)) fun sum _ => ?_)
    exact (base.update (f := (·.setI sum)) fun _ _ => rfl).next
  case drw x y n =>
    simp only [readsV, List.forall_mem_cons] at hr
    simp only [exec, execDrw, hr]
    refine ResultsAlike.commit rfl _ (.map (s.memRead s.dataAddress n) fun rows _ => ?_)
    exact ((base.update (f := (·.setFb _)) fun _ _ => rfl).setV (by simp [writesV]) _).next
  case ldB x =>
    simp only [readsV, List.forall_mem_cons] at hr
    simp only [exec, execLdB, hr]
    exact ((memWrite_alike s w _ _).update fun _ _ => rfl).commit rfl _
  case ldMemVx x =>
    have hblock := regBlock_congr s w x fun r hle => hr r (by simpa [readsV] using hle)
    simp only [exec, execLdMemVx, hblock]
    exact ((memWrite_alike s w _ _).update (f := fun u => (u.advanceI x).next) fun _ _ => rfl).commit rfl _
  case ldVxMem x =>
    refine ResultsAlike.commit rfl _ (.map (s.memRead s.dataAddress (x.val + 1)) fun bs hbs => ?_)
    have hlen := length_of_memRead_eq_ok s hbs
    have hloaded := base.loadRegs bs 0 fun r _ hlt => by
      simp only [writesV, List.mem_filter, List.mem_finRange, decide_eq_true_eq, true_and, Fin.le_def]
      omega
    exact (hloaded.update (f := (·.advanceI x)) fun _ _ => rfl).next

/-- Settles O21: both runs answer, and with writes alike. -/
theorem noRegisterOutsideTheTableIsReadOrWritten : Obligations.NoRegisterOutsideTheTableIsReadOrWritten := by
  intro i s s' t t' hreads hs ht ht'
  obtain ⟨w, rfl⟩ : ∃ w, s' = s.withV w := ⟨s'.v, hs⟩
  obtain ⟨u, u', hu, hu', halike⟩ := exec_alike s w i hreads
  obtain rfl : u = t := Host.Outcome.next.inj (hu.symm.trans ht)
  obtain rfl : u' = t' := Host.Outcome.next.inj (hu'.symm.trans ht')
  exact ⟨halike.outside, halike.inside, halike.rest⟩

end Sys2Proof.Machine
end

section
/-! PROOFS. Family 20_memory.md: every step keeps the canonical form of memory (R60, R63, R68), an access is checked as a whole
(R61 to R64), and a fetch sees every earlier write (R76). -/

namespace Sys2Proof.Machine

open Sys2Proof.Stated

variable {i : Instr} {s t : State} {a n : Nat} {bs : List Byte}

/-! ### The canonical form -/

/-- An instruction leaves memory as it is, or writes one block that lies in the array (R61, R63). -/
theorem exec_mem (h : exec i s = .next t) :
    t.mem = s.mem ∨
      ∃ bs, s.dataAddress + bs.length ≤ memSize ∧ t.mem = s.mem.setBytes s.params.fontTable s.dataAddress bs := by
  obtain ⟨r, rfl⟩ | he := exec_effect i s t h
  · exact .inl rfl
  cases i
  case ldB x =>
    obtain ⟨hin, rfl⟩ := he
    exact .inr ⟨bcdDigits (s.getV x), hin, rfl⟩
  case ldMemVx x =>
    obtain ⟨hin, he⟩ := he
    exact .inr ⟨s.regBlock x, by rwa [State.length_regBlock], by rw [he]⟩
  case ret =>
    obtain ⟨below, top, -, rfl⟩ := he
    exact .inl rfl
  case call =>
    obtain ⟨-, rfl⟩ := he
    exact .inl rfl
  case skp | sknp | seImm | sneImm | seReg | sneReg =>
    obtain ⟨he, -⟩ := he
    exact .inl (by rw [he])
  case ldVxK =>
    obtain rfl | he := he
    · exact .inl rfl
    · exact .inl (by rw [he])
  all_goals exact .inl (by rw [he])

/-- The one block an instruction may write lies in the array, so the memory it leaves is canonical again. -/
theorem exec_keeps_memWf (h : exec i s = .next t) (hwf : s.memWf) : t.memWf := by
  rw [State.memWf, exec_params h]
  obtain hsame | ⟨bs, hin, hblock⟩ := exec_mem h
  · rwa [hsame]
  · rw [hblock]
    exact Memory.wf_setBytes bs s.mem s.dataAddress hwf hin

theorem memWf_beforeStep : s.beforeStep.2.memWf ↔ s.memWf := by
  simp [State.memWf]

/-- Settles O16: of a step's stages only the instruction writes memory, and it keeps the canonical form. -/
theorem stepKeepsMemoryCanonical : Obligations.StepKeepsMemoryCanonical := by
  intro s t hwf h
  obtain ⟨u, hu, ht⟩ := step_eq_next h
  have hbefore : s.beforeStep.2.memWf := memWf_beforeStep.mpr hwf
  have hwfu : u.memWf := by
    obtain rfl | ⟨-, i, hi⟩ := hu
    · exact hbefore
    · exact exec_keeps_memWf hi hbefore
  rw [ht]
  exact hwfu

/-! ### Reading and writing -/

/-- A read inside the array gives the bytes from its address upwards (R62). -/
theorem memRead_eq_readBytes (h : a + n ≤ memSize) :
    s.memRead a n = .ok ((List.range n).map fun k => s.readByte (a + k)) :=
  s.memRead_ok a n h

/-- Every byte of the memory after a write: the byte written inside the block, the byte there before outside it (R63). -/
theorem readByte_of_memWrite_eq_ok (h : s.memWrite a bs = .ok t) (q : Nat) : t.readByte q = byteAfterWrite s a bs q := by
  obtain ⟨-, rfl⟩ := s.memWrite_eq_ok t a bs h
  unfold byteAfterWrite
  split
  · next hin =>
    obtain ⟨hle, hlt⟩ := hin
    have hread := Memory.get_setBytes_inside (font := s.params.fontTable) bs s.mem a (q - a) hlt
    rwa [Nat.add_sub_cancel' hle] at hread
  · next hout => exact Memory.get_setBytes_outside bs s.mem a q (by omega)

theorem byteAfterWrite_inside (s : State) (a : Nat) (bs : List Byte) (k : Nat) (h : k < bs.length) :
    byteAfterWrite s a bs (a + k) = bs[k] := by
  simp [byteAfterWrite, h]

theorem byteAfterWrite_outside (s : State) (a : Nat) (bs : List Byte) (q : Nat) (h : q < a ∨ a + bs.length ≤ q) :
    byteAfterWrite s a bs q = s.readByte q :=
  dif_neg (by omega)

/-- Settles O54: the check of R61 decides both accesses before any byte moves. -/
theorem memoryAccessIsCheckedAsAWhole : Obligations.MemoryAccessIsCheckedAsAWhole := by
  intro s a n bs
  refine ⟨fun h => ?_, s.memRead_error a n, fun h => ?_, s.memWrite_error a bs⟩
  · exact ⟨_, memRead_eq_readBytes h, by simp, fun k hk => by simp⟩
  · have hwrite := s.memWrite_ok a bs h
    refine ⟨_, hwrite, rfl, fun k hk => ?_, fun q hq => ?_⟩
    · rw [readByte_of_memWrite_eq_ok hwrite, byteAfterWrite_inside s a bs k hk]
    · rw [readByte_of_memWrite_eq_ok hwrite, byteAfterWrite_outside s a bs q hq]

/-- Settles O53: the block is the one byte, and one byte fits exactly below 4096. -/
theorem memoryRoundTripOfOneByte : Obligations.MemoryRoundTripOfOneByte := by
  intro s a v
  constructor
  · intro hin
    have hwrite := s.memWrite_ok a [v] hin
    refine ⟨_, hwrite, ?_⟩
    rw [memRead_eq_readBytes hin]
    have hread := readByte_of_memWrite_eq_ok hwrite a
    simpa [byteAfterWrite] using hread
  · intro hout
    have hpast : memSize < a + 1 := Nat.lt_succ_of_le hout
    exact ⟨s.memWrite_error a [v] hpast, s.memRead_error a 1 hpast⟩

/-! ### The fetch -/

/-- A fetch inside the array joins the two bytes at PC, the first as the high byte (R69). -/
theorem fetch_eq_readBytes (h : s.pc.toNat + 2 ≤ memSize) :
    s.fetch = .ok (s.readByte s.pc.toNat ++ s.readByte (s.pc.toNat + 1)) := by
  rw [State.fetch, memRead_eq_readBytes h]
  rfl

/-- Settles O55: the fetch reads memory as it stands, and each byte of that memory is known after a write. -/
theorem fetchSeesEveryEarlierWrite : Obligations.FetchSeesEveryEarlierWrite := by
  refine ⟨fun u hpc => fetch_eq_readBytes (Nat.add_le_add_right hpc 2), fun s t a bs pc hwrite hpc => ?_⟩
  have hread := readByte_of_memWrite_eq_ok hwrite
  rw [← hread, ← hread]
  exact fetch_eq_readBytes (s := { t with pc := pc }) (Nat.add_le_add_right hpc 2)

end Sys2Proof.Machine
end

section
/-! PROOFS. Family 30_encoding.md, part 1: decoder, encoder and opcode map agree (R91 to R95). Each proof follows the families of
R94: the op field picks the family, a selector field n or nn picks the row in it, and the fields of a word determine it. -/

namespace Sys2Proof

variable {w k m : Word} {op n : BitVec 4} {nn : Byte} {i : Instr}

/-! ### Decoding what was encoded -/

/-- Settles O1: each field of the encoded word is the operand or selector that the encoder put there. -/
theorem decodeOfEncodeGivesTheInstruction : Obligations.DecodeOfEncodeGivesTheInstruction := by
  intro i hwf
  cases i
  case cls | ret => rfl
  case drw x y n =>
    have hn : n ≤ 15 := of_decide_eq_true hwf
    simp [encode, decode, Nat.mod_eq_of_lt (Nat.lt_succ_of_le hn)]
  case ldReg | orReg | andReg | xorReg | addReg | sub | shr | subn | shl =>
    simp [encode, decode, decodeFamily8]
  case skp | sknp => simp [encode, decode, decodeFamilyE]
  case ldVxDt | ldVxK | ldDtVx | ldStVx | addI | ldF | ldB | ldMemVx | ldVxMem =>
    simp [encode, decode, decodeFamilyF]
  all_goals simp [encode, decode]

/-- Settles O5: each word is the encoding of its instruction. -/
theorem writtenOutWordsDecodeToTheirInstructions : Obligations.WrittenOutWordsDecodeToTheirInstructions :=
  have hdec := decodeOfEncodeGivesTheInstruction
  ⟨hdec .cls rfl, hdec (.call 0x345) rfl, hdec (.seImm 0xA 0x7C) rfl, hdec (.shr 0x1 0xA) rfl, hdec (.ldI 0xF01) rfl,
    hdec (.rnd 0xD 0x0F) rfl, hdec (.drw 0x2 0x7 11) rfl, hdec (.sknp 0x6) rfl, hdec (.ldVxK 0xB) rfl,
    hdec (.ldVxMem 0x4) rfl⟩

/-! ### Encoding what was decoded -/

theorem op_nnn_eq_word (hop : opField w = op) : (op ++ nnnField w : Word) = w := by
  rw [← hop]
  exact word_op_nnn w

theorem op_x_nn_eq_word (hop : opField w = op) (hnn : nnField w = nn) :
    (op ++ regField (xField w) ++ nn : Word) = w := by
  rw [← hop, ← hnn]
  exact word_x_nn w

theorem op_x_y_n_eq_word (hop : opField w = op) (hn : nField w = n) :
    (op ++ regField (xField w) ++ regField (yField w) ++ n : Word) = w := by
  rw [← hop, ← hn]
  exact word_x_y_n w

theorem encode_of_decodeFamily0 (h : decodeFamily0 w = .ok i) : encode i = w ∧ WellFormed i = true := by
  unfold decodeFamily0 at h
  split_ifs at h with hcls hret <;> cases h
  · exact ⟨hcls.symm, rfl⟩
  · exact ⟨hret.symm, rfl⟩

theorem encode_of_decodeFamily8 (hop : opField w = 0x8#4) (h : decodeFamily8 w = .ok i) :
    encode i = w ∧ WellFormed i = true := by
  simp only [decodeFamily8] at h
  split at h <;> cases h <;> exact ⟨op_x_y_n_eq_word hop ‹_›, rfl⟩

theorem encode_of_decodeFamilyE (hop : opField w = 0xE#4) (h : decodeFamilyE w = .ok i) :
    encode i = w ∧ WellFormed i = true := by
  simp only [decodeFamilyE] at h
  split at h <;> cases h <;> exact ⟨op_x_nn_eq_word hop ‹_›, rfl⟩

theorem encode_of_decodeFamilyF (hop : opField w = 0xF#4) (h : decodeFamilyF w = .ok i) :
    encode i = w ∧ WellFormed i = true := by
  simp only [decodeFamilyF] at h
  split at h <;> cases h <;> exact ⟨op_x_nn_eq_word hop ‹_›, rfl⟩

/-- Settles O2: in each branch of the decoder the word is put together again from its op field, its selector and its operands. -/
theorem encodeOfDecodedWordGivesTheWord : Obligations.EncodeOfDecodedWordGivesTheWord := by
  intro w i h
  unfold decode at h
  split at h
  case h_1 => exact encode_of_decodeFamily0 h
  case h_9 hop => exact encode_of_decodeFamily8 hop h
  case h_15 hop => exact encode_of_decodeFamilyE hop h
  case h_16 hop => exact encode_of_decodeFamilyF hop h
  case h_17 => cases h
  case h_2 hop | h_3 hop | h_11 hop | h_12 hop =>
    cases h
    exact ⟨op_nnn_eq_word hop, rfl⟩
  case h_4 hop | h_5 hop | h_7 hop | h_8 hop | h_13 hop =>
    cases h
    exact ⟨op_x_nn_eq_word hop rfl, rfl⟩
  case h_6 hop | h_10 hop =>
    split_ifs at h with hn
    cases h
    exact ⟨op_x_y_n_eq_word hop hn, rfl⟩
  case h_14 hop =>
    cases h
    have hword := op_x_y_n_eq_word hop rfl
    exact ⟨by simpa [encode] using hword, decide_eq_true (Nat.le_of_lt_succ (nField w).isLt)⟩

/-! ### The opcode map -/

/-- The encoded word carries the fixed bits of its row. -/
theorem encode_and_rowMask (i : Instr) : encode i &&& rowMask i = rowMatch i := by
  cases i
  case cls | ret => rfl
  case jp | call | ldI | jpV0 => exact mask_nnn _ _
  case seImm | sneImm | ldImm | addImm | rnd => exact mask_x_nn _ _ _
  case drw => exact mask_x_y_n _ _ _ _
  case skp | sknp | ldVxDt | ldVxK | ldDtVx | ldStVx | addI | ldF | ldB | ldMemVx | ldVxMem =>
    exact mask_x_sel _ _ _
  all_goals exact mask_x_y_sel _ _ _ _

theorem opField_of_mask (h : w &&& k = m) (hk : opField k = 0xF#4) : opField w = m.extractLsb' 12 4 := by
  have hand : opField (w &&& k) = opField w &&& opField k := BitVec.extractLsb'_and
  rwa [hk, and_F, h, eq_comm] at hand

theorem nField_of_mask (h : w &&& k = m) (hk : nField k = 0xF#4) : nField w = m.extractLsb' 0 4 := by
  have hand : nField (w &&& k) = nField w &&& nField k := BitVec.extractLsb'_and
  rwa [hk, and_F, h, eq_comm] at hand

theorem nnField_of_mask (h : w &&& k = m) (hk : nnField k = 0xFF#8) : nnField w = m.extractLsb' 0 8 := by
  have hand : nnField (w &&& k) = nnField w &&& nnField k := BitVec.extractLsb'_and
  rwa [hk, and_FF, h, eq_comm] at hand

/-- The fixed bits of a row are the op field and the selector, which lead the decoder to the instruction of that row. -/
theorem decode_of_matches_row (h : w &&& rowMask i = rowMatch i) :
    ∃ j, decode w = .ok j ∧ rowMask j = rowMask i ∧ rowMatch j = rowMatch i := by
  cases i <;> simp only [rowMask, rowMatch] at h
  case cls | ret =>
    obtain rfl : w = _ := BitVec.and_allOnes.symm.trans h
    exact ⟨_, rfl, rfl, rfl⟩
  all_goals have hop := opField_of_mask h rfl
  case seReg | sneReg =>
    have hn := nField_of_mask h rfl
    simp [decode, hop, hn, rowMask, rowMatch]
  case ldReg | orReg | andReg | xorReg | addReg | sub | shr | subn | shl =>
    have hn := nField_of_mask h rfl
    simp [decode, decodeFamily8, hop, hn, rowMask, rowMatch]
  case skp | sknp =>
    have hnn := nnField_of_mask h rfl
    simp [decode, decodeFamilyE, hop, hnn, rowMask, rowMatch]
  case ldVxDt | ldVxK | ldDtVx | ldStVx | addI | ldF | ldB | ldMemVx | ldVxMem =>
    have hnn := nnField_of_mask h rfl
    simp [decode, decodeFamilyF, hop, hnn, rowMask, rowMatch]
  all_goals simp [decode, hop, rowMask, rowMatch]

/-- Settles O3: the fixed bits lead the decoder to the row, and a decoded word is an encoding, which carries its row's bits. -/
theorem wordIsTheInstructionExactlyWhenItMatchesTheRow :
    Obligations.WordIsTheInstructionExactlyWhenItMatchesTheRow := by
  intro i w
  refine ⟨decode_of_matches_row, ?_⟩
  rintro ⟨j, hj, hmask, hmatch⟩
  obtain ⟨rfl, -⟩ := encodeOfDecodedWordGivesTheWord w j hj
  rw [← hmask, ← hmatch]
  exact encode_and_rowMask j

/-! ### The ILLEGAL words -/

theorem toNat_opField (w : Word) : (opField w).toNat = w.toNat / 4096 := by
  have hlt : w.toNat / 4096 < 16 := Nat.div_lt_of_lt_mul w.isLt
  simp [opField, Nat.shiftRight_eq_div_pow, Nat.mod_eq_of_lt hlt]

theorem toNat_nField (w : Word) : (nField w).toNat = w.toNat % 16 := by
  simp [nField]

theorem toNat_nnField (w : Word) : (nnField w).toNat = w.toNat % 256 := by
  simp [nnField]

theorem decodeFamily0_illegal_iff : decodeFamily0 w = .error (.illegal w) ↔ w ≠ 0x00E0#16 ∧ w ≠ 0x00EE#16 := by
  unfold decodeFamily0
  split_ifs <;> simp [*]

theorem decodeFamily8_illegal_iff :
    decodeFamily8 w = .error (.illegal w) ↔ (nField w).toNat ∈ [0x8, 0x9, 0xA, 0xB, 0xC, 0xD, 0xF] := by
  simp only [decodeFamily8]
  split
  case h_10 =>
    rw [eq_self, true_iff]
    generalize nField w = n at *
    revert n
    decide
  all_goals simp [*]

theorem decodeFamilyE_illegal_iff :
    decodeFamilyE w = .error (.illegal w) ↔ (nnField w).toNat ∉ [0x9E, 0xA1] := by
  unfold decodeFamilyE
  split <;> simp_all [BitVec.toNat_eq]

theorem decodeFamilyF_illegal_iff :
    decodeFamilyF w = .error (.illegal w) ↔
      (nnField w).toNat ∉ [0x07, 0x0A, 0x15, 0x18, 0x1E, 0x29, 0x33, 0x55, 0x65] := by
  simp only [decodeFamilyF]
  split <;> simp_all [BitVec.toNat_eq]

/-- Settles O4: families 0, 8, E and F list their own ILLEGAL words, 5 and 9 ask for n = 0, and the others have none. -/
theorem illegalWordsAreExactlyThoseListed : Obligations.IllegalWordsAreExactlyThoseListed := by
  intro w
  rw [← toNat_opField, ← toNat_nField, ← toNat_nnField]
  unfold decode
  split
  case h_1 hop => simp [hop, decodeFamily0_illegal_iff]
  case h_9 hop => simp [hop, decodeFamily8_illegal_iff]
  case h_15 hop => simp [hop, decodeFamilyE_illegal_iff]
  case h_16 hop => simp [hop, decodeFamilyF_illegal_iff]
  case h_6 hop | h_10 hop => simp [hop, BitVec.toNat_eq]
  case h_17 =>
    exfalso
    generalize opField w = op at *
    revert op
    decide
  case h_2 hop | h_3 hop | h_4 hop | h_5 hop | h_7 hop | h_8 hop | h_11 hop | h_12 hop | h_13 hop | h_14 hop =>
    simp [hop]

end Sys2Proof
end

section
/-! PROOFS. Family 30_encoding.md, part 2: the two ways a running core halts before anything executes, the faulting fetch (R99)
and the ILLEGAL word (R96). -/

namespace Sys2Proof.Machine

open Sys2Proof.Stated

variable {s : State}

theorem runInstruction_fetch_fault (h : memSize < s.pc.toNat + 2) :
    runInstruction s = .next (s.halt ⟨.outOfBoundsAccess, some s.pc, none, .range s.pc.toNat 2⟩) := by
  obtain ⟨-, hrun⟩ | ⟨hin, -⟩ := runInstruction_cases s
  · exact hrun
  · exact absurd hin (Nat.not_le_of_lt h)

theorem runInstruction_illegal {e : DecodeError} (hin : s.pc.toNat + 2 ≤ memSize)
    (h : decode (wordAtPc s) = .error e) :
    runInstruction s = .next (s.haltAt (wordAtPc s) ⟨.unrecognizedOpcode, .word (wordAtPc s)⟩) := by
  obtain ⟨hout, -⟩ | ⟨-, ⟨-, -, hrun⟩ | ⟨i, hi, -⟩⟩ := runInstruction_cases s
  · exact absurd hin (Nat.not_le_of_lt hout)
  · exact hrun
  · cases h.symm.trans hi

theorem State.present_halt (s : State) (f : FaultRecord) (ok : Bool) :
    (s.halt f).present ok = { s with status := .halted f, frameOut := none } := rfl

/-- A step whose instruction cycle halts is stages (a) to (d), the fault record, and no frame (R283). -/
theorem step_of_runInstruction_halt {f : FaultRecord} (hr : s.status = .running) (hq : s.beforeStep.1.quit = false)
    (hrun : runInstruction s.beforeStep.2 = .next (s.beforeStep.2.halt f)) :
    step s = .next { s.beforeStep.2 with status := .halted f, frameOut := none } := by
  rw [step_running hr, ← State.present_halt _ f s.beforeStep.1.presentOk]
  simp only [runIteration, hq, hrun, Bool.false_eq_true, if_false]

theorem wordAtPc_beforeStep (s : State) : wordAtPc s.beforeStep.2 = wordAtPc s := by
  simp [wordAtPc]

/-- Settles O8: stages (a) to (d) leave PC, and the fetch there runs past the array. -/
theorem fetchPastTheEndHalts : Obligations.FetchPastTheEndHalts := by
  intro s s1 inp hr hb hq hpc
  obtain ⟨rfl, rfl⟩ := Prod.mk.inj hb
  rw [← s.beforeStep_pc] at hpc ⊢
  exact step_of_runInstruction_halt hr hq (runInstruction_fetch_fault (Nat.add_le_add_right hpc 2))

/-- Settles O9: stages (a) to (d) leave PC and the word there, which does not decode. -/
theorem illegalWordHaltsTheCore : Obligations.IllegalWordHaltsTheCore := by
  intro s s1 inp hr hb hq hpc hill
  obtain ⟨rfl, rfl⟩ := Prod.mk.inj hb
  rw [← wordAtPc_beforeStep] at hill ⊢
  rw [← s.beforeStep_pc] at hpc ⊢
  have hrun := runInstruction_illegal (Nat.add_le_add_right hpc 2) hill
  exact ⟨_, _, step_of_runInstruction_halt hr hq hrun, rfl, rfl, rfl, rfl⟩

end Sys2Proof.Machine
end

section
/-! PROOFS. Family 40_flow.md: jumps, calls and returns (R120 to R123), and the skips on registers (R124 to R127). -/

namespace Sys2Proof.Machine

open Sys2Proof.Stated

variable {i : Instr} {s : State} {w : Word} {r : Raise}

/-! ### What the statements say of a state -/

@[simp] theorem field4_eq_regField (x : Reg) : field4 x = regField x :=
  BitVec.eq_of_toNat_eq (Nat.mod_eq_of_lt x.isLt)

theorem onlyPc_jump (s : State) (target : Word) : OnlyPc s (s.jump target) :=
  ⟨rfl, s.jump_readByte target⟩

theorem onlyPc_skip (s : State) (c : Bool) : OnlyPc s (s.skip c) :=
  ⟨rfl, s.skip_readByte c⟩

/-- Taking a fault writes its record and nothing else (R283). -/
theorem faultsWith_of_exec_eq_haltAt (h : exec i s = .next (s.haltAt w r)) : FaultsWith i s r.kind r.info :=
  ⟨_, h, rfl, rfl⟩

/-! ### Jumps -/

theorem zext16_toNat (nnn : BitVec 12) : (zext16 nnn).toNat = nnn.toNat :=
  BitVec.toNat_setWidth_of_le (by decide)

/-- The largest sum, 0xFF + 0xFFF, fits 16 bits (R123). -/
theorem offsetTarget_toNat (v : Byte) (nnn : BitVec 12) : (offsetTarget v nnn).toNat = v.toNat + nnn.toNat := by
  have := v.isLt
  have := nnn.isLt
  rw [offsetTarget, BitVec.toNat_ofNat]
  omega

/-- Settles O22: the jump's target is nnn with four zero bits above it. -/
theorem jumpGoesToItsAddress : Obligations.JumpGoesToItsAddress := fun nnn s =>
  ⟨decodeOfEncodeGivesTheInstruction (.jp nnn) rfl, _, rfl, zext16_toNat nnn, onlyPc_jump s _⟩

/-- Settles O23: the jump's target is the sum, which 16 bits hold. -/
theorem jumpWithOffsetGoesToTheExactSum : Obligations.JumpWithOffsetGoesToTheExactSum := fun nnn s =>
  ⟨decodeOfEncodeGivesTheInstruction (.jpV0 nnn) rfl, _, rfl, offsetTarget_toNat (s.getV 0) nnn, onlyPc_jump s _⟩

/-! ### Calls and returns -/

theorem exec_call_of_lt (nnn : BitVec 12) (h : s.stack.length < s.params.stackLimit) :
    exec (.call nnn) s = .next { s with stack := s.stack ++ [s.pc + 2], pc := zext16 nnn } := by
  simp only [exec, execCall, s.push_ok _ h, except_map_ok, State.commit_ok, State.jump]

theorem exec_call_of_ge (nnn : BitVec 12) (h : s.params.stackLimit ≤ s.stack.length) :
    exec (.call nnn) s = .next (s.haltAt (encode (.call nnn)) ⟨.stackOverflow, .depth s.stack.length⟩) := by
  simp only [exec, execCall, s.push_error _ h, except_map_error, State.commit_error]

theorem exec_ret_of_top {below : List Word} {top : Word} (h : s.stack = below ++ [top]) :
    exec .ret s = .next { s with stack := below, pc := top } := by
  simp only [exec, execRet, s.pop_ok _ _ h, except_map_ok, State.commit_ok, State.jump]

theorem exec_ret_of_empty (h : s.stack = []) :
    exec .ret s = .next (s.haltAt (encode .ret) ⟨.stackUnderflow, .depth 0⟩) := by
  simp only [exec, execRet, s.pop_error h, except_map_error, State.commit_error]

/-- Settles O24: below the limit the push succeeds, at the limit its fault is the instruction's. -/
theorem callPushesTheReturnAddressOrOverflows : Obligations.CallPushesTheReturnAddressOrOverflows := by
  intro nnn s
  refine ⟨decodeOfEncodeGivesTheInstruction (.call nnn) rfl, fun hroom => ?_, fun hfull => ?_⟩
  · exact ⟨_, exec_call_of_lt nnn hroom, zext16_toNat nnn, rfl, rfl, fun _ => rfl⟩
  · rw [← hfull]
    exact faultsWith_of_exec_eq_haltAt (exec_call_of_ge nnn hfull.ge)

/-- Settles O25: the pop takes the top entry, or its fault is the instruction's. -/
theorem returnPopsTheStackOrUnderflows : Obligations.ReturnPopsTheStackOrUnderflows := by
  intro s
  refine ⟨rfl, fun below top htop => ?_, fun hempty => ?_⟩
  · exact ⟨_, exec_ret_of_top htop, rfl, rfl, rfl, fun _ => rfl⟩
  · exact faultsWith_of_exec_eq_haltAt (exec_ret_of_empty hempty)

/-- Settles O26: the call leaves the return address on top of the stack it found, and the return takes it off. -/
theorem returnUndoesCall : Obligations.ReturnUndoesCall := fun nnn _ hroom =>
  ⟨_, exec_call_of_lt nnn hroom, exec_ret_of_top rfl⟩

/-! ### Skips -/

theorem State.skip_decide_pc (s : State) (p : Prop) [Decidable p] :
    (s.skip (decide p)).pc = s.pc + (if p then 4 else 2) := by
  by_cases hp : p <;> simp [hp]

theorem State.skip_decide_not_pc (s : State) (p : Prop) [Decidable p] :
    (s.skip (decide ¬p)).pc = s.pc + (if p then 2 else 4) := by
  rw [State.skip_decide_pc, ite_not]

/-- Settles O27: both words are encodings, and both instructions are skips on the comparison. -/
theorem skipsOnAnImmediate : Obligations.SkipsOnAnImmediate := by
  intro x nn s
  rw [field4_eq_regField]
  exact ⟨decodeOfEncodeGivesTheInstruction (.seImm x nn) rfl, decodeOfEncodeGivesTheInstruction (.sneImm x nn) rfl,
    ⟨_, rfl, s.skip_decide_pc _, onlyPc_skip s _⟩, ⟨_, rfl, s.skip_decide_not_pc _, onlyPc_skip s _⟩⟩

/-- Settles O28: in families 5 and 9 the n field alone decides between the skip and ILLEGAL. -/
theorem skipsOnTwoRegisters : Obligations.SkipsOnTwoRegisters := by
  intro x y n s
  refine ⟨?_, ?_, ⟨_, rfl, s.skip_decide_pc _, onlyPc_skip s _⟩, ⟨_, rfl, s.skip_decide_not_pc _, onlyPc_skip s _⟩⟩
  · simp [decode]
  · simp [decode]

end Sys2Proof.Machine
end

section
/-! PROOFS. Family 41_alu.md: register loads, arithmetic and the random draw (R150 to R163). What one register write and what a
register write followed by its flag do is said once; what is left of each instruction is the number its bytes hold. -/

namespace Sys2Proof.Machine

open Sys2Proof.Stated

variable {x : Reg} {b f : Byte} {value flag : Nat}

/-! ### Two register writes in a row -/

theorem State.setV_getV (s : State) (x : Reg) : s.setV x (s.getV x) = s := by
  simp [State.setV, State.getV]

theorem State.setV_setV (s : State) (x : Reg) (b c : Byte) : (s.setV x b).setV x c = s.setV x c := by
  simp [State.setV]

theorem State.setV_comm (s : State) {x y : Reg} (b c : Byte) (h : x ≠ y) :
    (s.setV x b).setV y c = (s.setV y c).setV x b := by
  simp only [State.setV]
  rw [Vector.set_comm _ _ (Fin.val_ne_of_ne h)]

/-- Writing the flag and then an operation on the reread Vx is writing the operation on the old Vx and then the flag, except
that with x = 0xF the operation is on the flag and its result is what remains (R12). -/
theorem State.setV_flag_reread (s : State) (x : Reg) (f : Byte) (op : Byte → Byte) :
    (s.setV regF f).setV x (op ((s.setV regF f).getV x)) =
      (s.setV x (op (s.getV x))).setV regF (if x = 15 then op f else f) := by
  by_cases hx : x = 15
  · subst hx
    rw [State.getV_setV_same, State.setV_setV, State.setV_setV, if_pos rfl]
  · rw [State.getV_setV_other _ _ _ _ hx, State.setV_comm _ _ _ (Ne.symm hx), if_neg hx]

/-! ### What the statements say of a register write -/

theorem writesReg_setV (s : State) (h : b.toNat = value) : WritesReg s (s.setV x b).next x value := by
  refine ⟨⟨rfl, s.setV_readByte x b⟩, ?_, fun r hr => s.getV_setV_other x b r hr⟩
  rw [State.next_getV, State.getV_setV_same, h]

theorem writesRegThenFlag_setV (s : State) (hb : b.toNat = value) (hf : f.toNat = flag) :
    WritesRegThenFlag s ((s.setV x b).setV regF f).next x value flag := by
  refine ⟨⟨rfl, s.setV_readByte x b⟩, ?_, fun r hr => ?_⟩
  · rw [State.next_getV, State.getV_setV_same, hf]
  · rw [State.next_getV, State.getV_setV_other _ _ _ _ hr, State.getV_setV, apply_ite BitVec.toNat, hb]

theorem writesRegThenFlag_reread (s : State) (op : Byte → Byte) (hb : (op (s.getV x)).toNat = value)
    (hf : (if x = 15 then op f else f).toNat = flag) :
    WritesRegThenFlag s ((s.setV regF f).setV x (op ((s.setV regF f).getV x))).next x value flag := by
  rw [State.setV_flag_reread]
  exact writesRegThenFlag_setV s hb hf

/-! ### The numbers the results hold -/

theorem toByte_toNat (n : Nat) : (toByte n).toNat = n % 256 :=
  BitVec.toNat_ofNat n 8

theorem subMod_toNat (a b : Byte) : (subMod a b).toNat = (a.toNat + 256 - b.toNat) % 256 := by
  have := b.isLt
  rw [subMod, BitVec.toNat_ofInt]
  omega

theorem flagByte_toNat (p : Prop) [Decidable p] : (flagByte (decide p)).toNat = if p then 1 else 0 := by
  by_cases hp : p <;> simp [flagByte, hp]

theorem carryFlag_toNat (a b : Byte) : (carryFlag a b).toNat = if a.toNat + b.toNat > 255 then 1 else 0 :=
  flagByte_toNat _

theorem greaterFlag_toNat (a b : Byte) : (greaterFlag a b).toNat = if a.toNat > b.toNat then 1 else 0 :=
  flagByte_toNat _

theorem shiftRight_one_toNat (v : Byte) : (v >>> 1).toNat = v.toNat / 2 := by
  rw [BitVec.toNat_ushiftRight, Nat.shiftRight_eq_div_pow]

theorem shiftLeft_one_toNat (v : Byte) : (v <<< 1).toNat = v.toNat * 2 % 256 := by
  rw [BitVec.toNat_shiftLeft, Nat.shiftLeft_eq]

theorem lowBitFlag_toNat (v : Byte) : (lowBitFlag v).toNat = v.toNat % 2 :=
  (BitVec.toNat_and v 1).trans (Nat.and_one_is_mod v.toNat)

theorem highBitFlag_toNat (v : Byte) : (highBitFlag v).toNat = v.toNat / 128 := by
  rw [highBitFlag, BitVec.toNat_ushiftRight, Nat.shiftRight_eq_div_pow]

/-- What SHR leaves in VF: with x = 0xF the flag is shifted too, and its one bit is lost. -/
theorem shrFlag_toNat (x : Reg) (v : Byte) :
    (if x = 15 then lowBitFlag v >>> 1 else lowBitFlag v).toNat = if x = 15 then 0 else v.toNat % 2 := by
  rw [apply_ite BitVec.toNat, shiftRight_one_toNat, lowBitFlag_toNat,
    Nat.div_eq_of_lt (Nat.mod_lt v.toNat Nat.two_pos)]

/-- What SHL leaves in VF: with x = 0xF the flag is shifted too, to 2 or 0. -/
theorem shlFlag_toNat (x : Reg) (v : Byte) :
    (if x = 15 then highBitFlag v <<< 1 else highBitFlag v).toNat =
      if x = 15 then 2 * (v.toNat / 128) else v.toNat / 128 := by
  have hdouble : v.toNat / 128 * 2 % 256 = 2 * (v.toNat / 128) := by
    have := v.isLt
    omega
  rw [apply_ite BitVec.toNat, shiftLeft_one_toNat, highBitFlag_toNat, hdouble]

/-! ### The instructions -/

/-- Settles O30: each instruction is one register write. -/
theorem loadsAndAddImmediate : Obligations.LoadsAndAddImmediate := by
  intro x y nn s
  simp only [field4_eq_regField]
  have hdec := decodeOfEncodeGivesTheInstruction
  exact ⟨hdec (.ldImm x nn) rfl, hdec (.addImm x nn) rfl, hdec (.ldReg x y) rfl,
    ⟨_, rfl, writesReg_setV s rfl⟩, ⟨_, rfl, writesReg_setV s (toByte_toNat _)⟩, ⟨_, rfl, writesReg_setV s rfl⟩⟩

/-- Settles O31: each instruction is one register write, of a byte that is the operation on the operands' numbers. -/
theorem bitwiseOperationsLeaveVFAlone : Obligations.BitwiseOperationsLeaveVFAlone := by
  intro x y s
  simp only [field4_eq_regField]
  have hdec := decodeOfEncodeGivesTheInstruction
  exact ⟨hdec (.orReg x y) rfl, hdec (.andReg x y) rfl, hdec (.xorReg x y) rfl,
    ⟨_, rfl, writesReg_setV s (BitVec.toNat_or _ _)⟩, ⟨_, rfl, writesReg_setV s (BitVec.toNat_and _ _)⟩,
    ⟨_, rfl, writesReg_setV s (BitVec.toNat_xor _ _)⟩⟩

/-- Settles O32: the sum is written and then the carry of the captured operands. -/
theorem addWritesSumThenCarry : Obligations.AddWritesSumThenCarry := by
  intro x y s
  simp only [field4_eq_regField]
  exact ⟨decodeOfEncodeGivesTheInstruction (.addReg x y) rfl, _, rfl,
    writesRegThenFlag_setV s (toByte_toNat _) (carryFlag_toNat _ _)⟩

/-- Settles O33: the difference is written and then the comparison of the captured operands. -/
theorem subtractionsWriteDifferenceThenStrictFlag : Obligations.SubtractionsWriteDifferenceThenStrictFlag := by
  intro x y s
  simp only [field4_eq_regField]
  have hdec := decodeOfEncodeGivesTheInstruction
  exact ⟨hdec (.sub x y) rfl, hdec (.subn x y) rfl,
    ⟨_, rfl, writesRegThenFlag_setV s (subMod_toNat _ _) (greaterFlag_toNat _ _)⟩,
    ⟨_, rfl, writesRegThenFlag_setV s (subMod_toNat _ _) (greaterFlag_toNat _ _)⟩⟩

/-- Settles O34: both instructions write the flag first and shift Vx as reread. -/
theorem shiftsWriteFlagThenShiftedValue : Obligations.ShiftsWriteFlagThenShiftedValue := by
  intro x y s
  simp only [field4_eq_regField]
  have hdec := decodeOfEncodeGivesTheInstruction
  exact ⟨hdec (.shr x y) rfl, hdec (.shl x y) rfl,
    ⟨_, rfl, writesRegThenFlag_reread s (· >>> 1) (shiftRight_one_toNat _) (shrFlag_toNat x _)⟩,
    ⟨_, rfl, writesRegThenFlag_reread s (· <<< 1) (shiftLeft_one_toNat _) (shlFlag_toNat x _)⟩⟩

/-! ### The same-register forms -/

theorem State.next_setV_of_eq (s : State) (h : b = s.getV x) : (s.setV x b).next = { s with pc := s.pc + 2 } := by
  rw [h, State.setV_getV]
  rfl

/-- The carry of a byte added to itself is its top bit. -/
theorem carry_of_double (v : Byte) : (if v.toNat + v.toNat > 255 then 1 else 0) = v.toNat / 128 := by
  have := v.isLt
  split <;> omega

/-- Settles O35: the rules of the two-register forms, at y = x. -/
theorem sameRegisterForms : Obligations.SameRegisterForms := by
  intro x s _
  obtain ⟨-, -, -, -, -, hxor⟩ := bitwiseOperationsLeaveVFAlone x x s
  obtain ⟨-, hadd⟩ := addWritesSumThenCarry x x s
  obtain ⟨-, -, hsub, hsubn⟩ := subtractionsWriteDifferenceThenStrictFlag x x s
  rw [Nat.xor_self] at hxor
  rw [carry_of_double, ← Nat.two_mul] at hadd
  rw [Nat.add_sub_cancel_left, Nat.mod_self, if_neg (Nat.lt_irrefl _)] at hsub hsubn
  refine ⟨?_, ?_, ?_, hxor, hadd, hsub, hsubn⟩
  · exact congrArg _ (s.next_setV_of_eq rfl)
  · exact congrArg _ (s.next_setV_of_eq BitVec.or_self)
  · exact congrArg _ (s.next_setV_of_eq BitVec.and_self)

/-! ### The random draw -/

theorem State.draw_draws (s : State) : s.draw.2.draws = s.draws + 1 := by
  unfold State.draw
  split <;> rfl

theorem State.draw_getV (s : State) (r : Reg) : s.draw.2.getV r = s.getV r := by
  rw [State.draw_frame]
  rfl

theorem State.draw_readByte (s : State) (a : Nat) : s.draw.2.readByte a = s.readByte a := by
  rw [State.draw_frame]
  rfl

theorem State.draw_setV_next_frame (s : State) (x : Reg) (b : Byte) :
    (s.draw.2.setV x b).next =
      { s with v := s.draw.2.v.set x b, pc := s.pc + 2, randIn := s.draw.2.randIn, draws := s.draw.2.draws } := by
  rw [State.draw_frame]
  rfl

/-- A masked byte has no bit outside the mask. -/
theorem and_mask_and_not (b nn : Byte) : b &&& nn &&& ~~~nn = 0 := by
  rw [BitVec.and_assoc, BitVec.and_not_self]
  exact BitVec.and_zero

/-- Settles O36: RND is one draw and one register write, and a draw changes the draw's own fields alone. -/
theorem randomWritesOneFreshDrawUnderTheMask : Obligations.RandomWritesOneFreshDrawUnderTheMask := by
  intro x nn s
  rw [field4_eq_regField]
  have hx : (s.draw.2.setV x (s.draw.1 &&& nn)).next.getV x = s.draw.1 &&& nn := by
    rw [State.next_getV, State.getV_setV_same]
  refine ⟨decodeOfEncodeGivesTheInstruction (.rnd x nn) rfl, _, s.draw.1, rfl, hx, ?_, fun b rest hlined => ?_,
    fun hempty => ?_, s.draw_draws, fun r hr => ?_, s.draw_setV_next_frame x _, s.draw_readByte⟩
  · rw [hx, and_mask_and_not]
  · simp [s.draw_lined_up b rest hlined]
  · simp [s.draw_free hempty, hempty]
  · rw [State.next_getV, State.getV_setV_other _ _ _ _ hr, State.draw_getV]

end Sys2Proof.Machine
end

section
/-! PROOFS. Family 42_index_memory.md: the address register (R190 to R192), the decimal digits (R193) and the register block
(R194, R195). Each transfer is its one memory access: where the access succeeds the rest of the instruction follows, and its
fault is the instruction's. -/

namespace Sys2Proof.Machine

open Sys2Proof.Stated

variable {x : Reg} {s t : State} {r : Raise} {bs : List Byte} {a : Nat}

/-! ### The address register -/

theorem onlyI_setI (s : State) (w : Word) : OnlyI s (s.setI w).next :=
  ⟨rfl, s.setI_readByte w⟩

/-- The low nibble of Vx selects the glyph, and the last glyph lies at 75 (R192). -/
theorem glyphAddress_toNat (v : Byte) : (glyphAddress v).toNat = v.toNat % 16 * 5 := by
  have hnibble : (v &&& 0xF).toNat = v.toNat % 16 :=
    (BitVec.toNat_and v 0xF).trans (Nat.and_two_pow_sub_one_eq_mod v.toNat 4)
  have hfits : v.toNat % 16 * 5 < 2 ^ 16 := by omega
  rw [glyphAddress, hnibble, Nat.zero_add, BitVec.toNat_ofNat, Nat.mod_eq_of_lt hfits]

/-- Settles O37: both instructions are one write of I. -/
theorem addressRegisterLoads : Obligations.AddressRegisterLoads := by
  intro nnn x s
  rw [field4_eq_regField]
  exact ⟨decodeOfEncodeGivesTheInstruction (.ldI nnn) rfl, decodeOfEncodeGivesTheInstruction (.ldF x) rfl,
    ⟨_, rfl, zext16_toNat nnn, onlyI_setI s _⟩, ⟨_, rfl, glyphAddress_toNat (s.getV x), onlyI_setI s _⟩⟩

theorem exec_addI_of_le (h : s.i.toNat + (s.getV x).toNat ≤ 0xFFFF) :
    exec (.addI x) s = .next (s.setI (BitVec.ofNat 16 (s.i.toNat + (s.getV x).toNat))).next := by
  simp only [exec, execAddI, addToI, if_neg (Nat.not_lt_of_le h), except_map_ok, State.commit_ok]

theorem exec_addI_of_gt (h : s.i.toNat + (s.getV x).toNat > 0xFFFF) :
    exec (.addI x) s = .next (s.haltAt (encode (.addI x)) ⟨.integerOverflow, .overflow s.i (s.getV x)⟩) := by
  simp only [exec, execAddI, addToI, if_pos h, except_map_error, State.commit_error]

/-- Settles O38: the exact sum, compared with 0xFFFF, decides between the write of I and the fault. -/
theorem addToIWritesTheExactSumOrOverflows : Obligations.AddToIWritesTheExactSumOrOverflows := by
  intro x s
  rw [field4_eq_regField]
  refine ⟨decodeOfEncodeGivesTheInstruction (.addI x) rfl, fun hfits => ?_, fun hover => ?_⟩
  · have hsum := Nat.mod_eq_of_lt (Nat.lt_succ_of_le hfits)
    exact ⟨_, exec_addI_of_le hfits, (BitVec.toNat_ofNat _ 16).trans hsum, onlyI_setI s _⟩
  · exact faultsWith_of_exec_eq_haltAt (exec_addI_of_gt hover)

/-! ### What a block write leaves in memory -/

theorem readByte_of_memWrite_inside (h : s.memWrite a bs = .ok t) (k : Nat) (hk : k < bs.length) :
    t.readByte (a + k) = bs[k] :=
  (readByte_of_memWrite_eq_ok h (a + k)).trans (byteAfterWrite_inside s a bs k hk)

theorem readByte_of_memWrite_outside (h : s.memWrite a bs = .ok t) (q : Nat) (hq : q < a ∨ a + bs.length ≤ q) :
    t.readByte q = s.readByte q :=
  (readByte_of_memWrite_eq_ok h q).trans (byteAfterWrite_outside s a bs q hq)

/-! ### The decimal digits -/

theorem exec_ldB_of_memWrite_ok (h : s.memWrite s.dataAddress (bcdDigits (s.getV x)) = .ok t) :
    exec (.ldB x) s = .next t.next := by
  simp only [exec, execLdB, h, except_map_ok, State.commit_ok]

theorem exec_ldB_of_memWrite_error (h : s.memWrite s.dataAddress (bcdDigits (s.getV x)) = .error r) :
    exec (.ldB x) s = .next (s.haltAt (encode (.ldB x)) r) := by
  simp only [exec, execLdB, h, except_map_error, State.commit_error]

theorem toByte_toNat_of_lt {n : Nat} (h : n < 256) : (toByte n).toNat = n :=
  (toByte_toNat n).trans (Nat.mod_eq_of_lt h)

/-- Settles O39: the three digits are the block written, and the block is checked as a whole. -/
theorem bcdDigitsGoToMemory : Obligations.BcdDigitsGoToMemory := by
  intro x s
  rw [field4_eq_regField]
  refine ⟨decodeOfEncodeGivesTheInstruction (.ldB x) rfl, fun hin => ?_, fun hout => ?_⟩
  · have hwrite := s.memWrite_ok s.dataAddress (bcdDigits (s.getV x)) hin
    have hdigit := readByte_of_memWrite_inside hwrite
    have hv := (s.getV x).isLt
    refine ⟨_, exec_ldB_of_memWrite_ok hwrite, ?_, ?_, ?_, readByte_of_memWrite_outside hwrite, rfl⟩
    · exact (congrArg BitVec.toNat (hdigit 0 (by simp [bcdDigits]))).trans (toByte_toNat_of_lt (by omega))
    · exact (congrArg BitVec.toNat (hdigit 1 (by simp [bcdDigits]))).trans (toByte_toNat_of_lt (by omega))
    · exact (congrArg BitVec.toNat (hdigit 2 (by simp [bcdDigits]))).trans (toByte_toNat_of_lt (by omega))
  · exact faultsWith_of_exec_eq_haltAt (exec_ldB_of_memWrite_error (s.memWrite_error _ _ hout))

/-! ### The register block -/

/-- After an access in the array I is at most 4096, so the increment does not wrap (R194, R195). -/
theorem advanceI_toNat (h : s.i.toNat + x.val + 1 ≤ 4096) :
    (s.i + BitVec.ofNat 16 (x.val + 1)).toNat = s.i.toNat + x.val + 1 := by
  rw [BitVec.toNat_add, BitVec.toNat_ofNat]
  omega

theorem exec_ldMemVx_of_memWrite_ok (h : s.memWrite s.dataAddress (s.regBlock x) = .ok t) :
    exec (.ldMemVx x) s = .next (t.advanceI x).next := by
  simp only [exec, execLdMemVx, h, except_map_ok, State.commit_ok]

theorem exec_ldMemVx_of_memWrite_error (h : s.memWrite s.dataAddress (s.regBlock x) = .error r) :
    exec (.ldMemVx x) s = .next (s.haltAt (encode (.ldMemVx x)) r) := by
  simp only [exec, execLdMemVx, h, except_map_error, State.commit_error]

theorem exec_ldVxMem_of_memRead_ok (h : s.memRead s.dataAddress (x.val + 1) = .ok bs) :
    exec (.ldVxMem x) s = .next ((s.loadRegs 0 bs).advanceI x).next := by
  simp only [exec, execLdVxMem, h, except_map_ok, State.commit_ok]

theorem exec_ldVxMem_of_memRead_error (h : s.memRead s.dataAddress (x.val + 1) = .error r) :
    exec (.ldVxMem x) s = .next (s.haltAt (encode (.ldVxMem x)) r) := by
  simp only [exec, execLdVxMem, h, except_map_error, State.commit_error]

/-- Settles O40: byte k of the block written is Vk. -/
theorem storeRegistersWritesTheBlockAndAdvancesI : Obligations.StoreRegistersWritesTheBlockAndAdvancesI := by
  intro x s
  rw [field4_eq_regField]
  have hlen := s.length_regBlock x
  refine ⟨decodeOfEncodeGivesTheInstruction (.ldMemVx x) rfl, fun hin => ?_, fun hout => ?_⟩
  · have hwrite := s.memWrite_ok s.dataAddress (s.regBlock x) (by rwa [hlen])
    refine ⟨_, exec_ldMemVx_of_memWrite_ok hwrite, fun k hk => ?_, fun a ha => ?_, advanceI_toNat hin, rfl⟩
    · have hk' : k.val < (s.regBlock x).length := hlen ▸ Nat.lt_succ_of_le hk
      exact (readByte_of_memWrite_inside hwrite k hk').trans (s.getElem_regBlock x k hk')
    · exact readByte_of_memWrite_outside hwrite a (by rwa [hlen])
  · have hwrite := s.memWrite_error s.dataAddress (s.regBlock x) (by rwa [hlen])
    rw [hlen] at hwrite
    exact faultsWith_of_exec_eq_haltAt (exec_ldMemVx_of_memWrite_error hwrite)

/-- Loading the bytes of memory from an address upwards into V0 to Vx (R195). -/
theorem getV_loadRegs_readBytes (s : State) (a : Nat) (x k : Reg) :
    (s.loadRegs 0 ((List.range (x.val + 1)).map fun j => s.readByte (a + j))).getV k =
      if k ≤ x then s.readByte (a + k.val) else s.getV k := by
  rw [State.getV_loadRegs]
  simp

/-- Settles O41: byte k of the block read goes to Vk, and loading a block writes V alone. -/
theorem loadRegistersReadsTheBlockAndAdvancesI : Obligations.LoadRegistersReadsTheBlockAndAdvancesI := by
  intro x s
  rw [field4_eq_regField]
  refine ⟨decodeOfEncodeGivesTheInstruction (.ldVxMem x) rfl, fun hin => ?_, fun hout => ?_⟩
  · refine ⟨_, exec_ldVxMem_of_memRead_ok (memRead_eq_readBytes hin),
      fun k => getV_loadRegs_readBytes s s.dataAddress x k, ?_⟩
    rw [State.loadRegs_frame]
    exact ⟨advanceI_toNat hin, rfl, fun _ => rfl⟩
  · exact faultsWith_of_exec_eq_haltAt (exec_ldVxMem_of_memRead_error (s.memRead_error _ _ hout))

/-- Settles O42: what the load reads is what the store wrote, and both advance I from the same address. -/
theorem loadAfterStoreRestoresTheRegisters : Obligations.LoadAfterStoreRestoresTheRegisters := by
  intro x s between hin
  obtain ⟨-, hstore, -⟩ := storeRegistersWritesTheBlockAndAdvancesI x s
  obtain ⟨t, ht, hstored, -, hti, -⟩ := hstore hin
  obtain ⟨-, hload, -⟩ := loadRegistersReadsTheBlockAndAdvancesI x { t with v := between, i := s.i }
  obtain ⟨u, hu, hloaded, hui, hframe, -⟩ := hload hin
  refine ⟨t, u, ht, hu, fun k hk => ?_, fun k hk => ?_, BitVec.eq_of_toNat_eq (hui.trans hti.symm), ?_⟩
  · rw [hloaded k, if_pos hk]
    exact hstored k hk
  · rw [hloaded k, if_neg (Fin.not_le.mpr hk)]
    rfl
  · rw [hframe]

end Sys2Proof.Machine
end

section
/-! PROOFS. Family 43_display.md: the blit engine (R220 to R225, R228), CLS (R226) and DRW (R227). A draw is a walk over the
list of the pixels its set bits fall on. No pixel stands twice in that list (R225), so a draw inverts each of them once and
compares it with the frame buffer as it stood before the draw. -/

namespace Sys2Proof.Machine

open Sys2Proof.Stated

variable {x y : Reg} {n : Nat} {s : State} {r : Raise} {rows : List Byte}

/-! ### Drawing a list of pixels -/

/-- The row and the column of a pixel of the frame buffer (R37). -/
abbrev Pixel := Fin 32 × Fin 64

/-- `blitPixel` at each pixel of a list, in the list's order. -/
def blitPixels (p : BlitState) (pixels : List Pixel) : BlitState :=
  pixels.foldl (fun q a => blitPixel q a.1 a.2) p

@[simp] theorem blitPixels_nil (p : BlitState) : blitPixels p [] = p := rfl

@[simp] theorem blitPixels_cons (p : BlitState) (a : Pixel) (pixels : List Pixel) :
    blitPixels p (a :: pixels) = blitPixels (blitPixel p a.1 a.2) pixels := rfl

theorem blitPixels_append (p : BlitState) (first second : List Pixel) :
    blitPixels p (first ++ second) = blitPixels (blitPixels p first) second := List.foldl_append

/-- Drawing distinct pixels inverts these and leaves all others. -/
theorem pixel_blitPixels (p : BlitState) {pixels : List Pixel} (h : pixels.Nodup) (r : Fin 32) (c : Fin 64) :
    (blitPixels p pixels).1.pixel r c = (p.1.pixel r c ^^ decide ((r, c) ∈ pixels)) := by
  induction pixels generalizing p with
  | nil => simp
  | cons a rest ih =>
    obtain ⟨hout, hrest⟩ := List.nodup_cons.mp h
    rw [blitPixels_cons, ih _ hrest, blitPixel_fst, FrameBuffer.pixel_flip]
    by_cases ha : (r, c) = a
    · subst ha
      simp [hout]
    · have hne : ¬ (r = a.1 ∧ c = a.2) := fun e => ha (Prod.ext e.1 e.2)
      simp [ha, hne]

/-- Drawing distinct pixels meets each as it was before the draw, so the collision bit is set exactly when it was set already
or one of them was lit. -/
theorem collision_blitPixels (p : BlitState) {pixels : List Pixel} (h : pixels.Nodup) :
    (blitPixels p pixels).2 = true ↔ p.2 = true ∨ ∃ a ∈ pixels, p.1.pixel a.1 a.2 = true := by
  induction pixels generalizing p with
  | nil => simp
  | cons a rest ih =>
    obtain ⟨hout, hrest⟩ := List.nodup_cons.mp h
    have hkept : ∀ b ∈ rest, (p.1.flip a.1 a.2).pixel b.1 b.2 = p.1.pixel b.1 b.2 := by
      intro b hb
      have hne : ¬ (b.1 = a.1 ∧ b.2 = a.2) := fun e => hout (Prod.ext e.1 e.2 ▸ hb)
      simp [FrameBuffer.pixel_flip, hne]
    have hlit : (∃ b ∈ rest, (p.1.flip a.1 a.2).pixel b.1 b.2 = true) ↔ ∃ b ∈ rest, p.1.pixel b.1 b.2 = true :=
      exists_congr fun b => and_congr_right fun hb => by rw [hkept b hb]
    rw [blitPixels_cons, ih _ hrest, blitPixel_fst, blitPixel_snd, hlit]
    simp [or_assoc]

/-! ### The pixels of a sprite -/

/-- The pixels that the set bits of one sprite row fall on, from left to right (R222). -/
def rowPixels (x0 : Nat) (r : Fin 32) (row : Byte) : List Pixel :=
  ((List.range 8).filter (spriteBit row)).map fun b => (r, wrapCol (x0 + b))

/-- The pixels that the set bits of a sprite fall on, its first row at row y0 of the screen (R222). -/
def spritePixels (x0 : Nat) : Nat → List Byte → List Pixel
  | _, [] => []
  | y0, row :: rest => rowPixels x0 (wrapRow y0) row ++ spritePixels x0 (y0 + 1) rest

theorem blitRow_eq_blitPixels (p : BlitState) (x0 : Nat) (r : Fin 32) (row : Byte) :
    blitRow p x0 r row = blitPixels p (rowPixels x0 r row) := by
  rw [blitRow, blitPixels, rowPixels, List.foldl_map, List.foldl_filter]

theorem blitRows_eq_blitPixels (x0 y0 k : Nat) (rows : List Byte) (p : BlitState) :
    blitRows x0 y0 k rows p = blitPixels p (spritePixels x0 (y0 + k) rows) := by
  induction rows generalizing k p with
  | nil => rfl
  | cons row rest ih => rw [blitRows, ih, spritePixels, blitPixels_append, blitRow_eq_blitPixels, Nat.add_assoc]

theorem drawSprite_eq_blitPixels (fb : FrameBuffer) (x0 y0 : Byte) (rows : List Byte) :
    drawSprite fb x0 y0 rows = blitPixels (fb, false) (spritePixels x0.toNat y0.toNat rows) :=
  blitRows_eq_blitPixels x0.toNat y0.toNat 0 rows (fb, false)

theorem mem_rowPixels (x0 : Nat) (r' : Fin 32) (row : Byte) (r : Fin 32) (c : Fin 64) :
    (r, c) ∈ rowPixels x0 r' row ↔
      ∃ b < 8, row.getLsbD (7 - b) = true ∧ r = r' ∧ c.val = (x0 + b) % 64 := by
  simp only [rowPixels, List.mem_map, List.mem_filter, List.mem_range, spriteBit, Prod.mk.injEq, and_assoc]
  exact exists_congr fun b => and_congr_right' (and_congr_right' (and_congr eq_comm (eq_comm.trans Fin.ext_iff)))

/-- Bit b of sprite row k falls on row y0 + k and column x0 + b, each wrapped (R222, R224). -/
theorem mem_spritePixels (x0 y0 : Nat) (rows : List Byte) (r : Fin 32) (c : Fin 64) :
    (r, c) ∈ spritePixels x0 y0 rows ↔
      ∃ (k : Nat) (h : k < rows.length), ∃ b < 8, rows[k].getLsbD (7 - b) = true ∧
        r.val = (y0 + k) % 32 ∧ c.val = (x0 + b) % 64 := by
  induction rows generalizing y0 with
  | nil => simp [spritePixels]
  | cons row rest ih =>
    rw [spritePixels, List.mem_append, mem_rowPixels, ih]
    constructor
    · rintro (⟨b, hb, hbit, hr, hc⟩ | ⟨k, hk, b, hb, hbit, hr, hc⟩)
      · exact ⟨0, by simp, b, hb, hbit, congrArg Fin.val hr, hc⟩
      · exact ⟨k + 1, by simpa using hk, b, hb, hbit, by omega, hc⟩
    · rintro ⟨k, hk, b, hb, hbit, hr, hc⟩
      cases k with
      | zero => exact .inl ⟨b, hb, hbit, Fin.ext hr, hc⟩
      | succ k => exact .inr ⟨k, by simpa using hk, b, hb, hbit, by omega, hc⟩

/-- Eight neighbouring columns stay apart when they wrap (R225). -/
theorem nodup_rowPixels (x0 : Nat) (r : Fin 32) (row : Byte) : (rowPixels x0 r row).Nodup := by
  refine (List.nodup_range.filter _).map_on fun b hb b' hb' heq => ?_
  have hb : b < 8 := List.mem_range.mp (List.mem_of_mem_filter hb)
  have hb' : b' < 8 := List.mem_range.mp (List.mem_of_mem_filter hb')
  have hcol : (x0 + b) % 64 = (x0 + b') % 64 := congrArg (fun a => a.2.val) heq
  omega

/-- A sprite of at most 32 rows never overlaps itself (R225). -/
theorem nodup_spritePixels (x0 y0 : Nat) (rows : List Byte) (h : rows.length ≤ 32) :
    (spritePixels x0 y0 rows).Nodup := by
  induction rows generalizing y0 with
  | nil => exact List.nodup_nil
  | cons row rest ih =>
    rw [List.length_cons] at h
    refine (nodup_rowPixels x0 _ row).append (ih (y0 + 1) (by omega)) ?_
    rintro ⟨r, c⟩ hfirst hrest
    obtain ⟨b, -, -, rfl, -⟩ := (mem_rowPixels ..).mp hfirst
    obtain ⟨k, hk, -, -, -, hr, -⟩ := (mem_spritePixels ..).mp hrest
    have hr : y0 % 32 = (y0 + 1 + k) % 32 := hr
    omega

/-! ### Drawing a sprite -/

theorem pixel_drawSprite (fb : FrameBuffer) (x0 y0 : Byte) (h : rows.length ≤ 32) (r : Fin 32) (c : Fin 64) :
    (drawSprite fb x0 y0 rows).1.pixel r c =
      (fb.pixel r c ^^ decide ((r, c) ∈ spritePixels x0.toNat y0.toNat rows)) := by
  rw [drawSprite_eq_blitPixels, pixel_blitPixels _ (nodup_spritePixels _ _ _ h)]

theorem collision_drawSprite (fb : FrameBuffer) (x0 y0 : Byte) (h : rows.length ≤ 32) :
    (drawSprite fb x0 y0 rows).2 = true ↔
      ∃ r c, (r, c) ∈ spritePixels x0.toNat y0.toNat rows ∧ fb.pixel r c = true := by
  rw [drawSprite_eq_blitPixels, collision_blitPixels _ (nodup_spritePixels _ _ _ h)]
  simp

/-- Settles O45: inverting the sprite's pixels twice restores them, and the second draw meets each inverted. -/
theorem drawingTwiceRestoresTheFrameBuffer : Obligations.DrawingTwiceRestoresTheFrameBuffer := by
  intro fb x0 y0 rows hlen
  have hlen : rows.length ≤ 32 := by omega
  have hpixel := fun fb => pixel_drawSprite fb x0 y0 hlen
  constructor
  · refine FrameBuffer.ext_pixel _ _ fun r c => ?_
    rw [hpixel, hpixel, Bool.xor_assoc, Bool.xor_self, Bool.xor_false]
  · rw [collision_drawSprite _ _ _ hlen]
    constructor
    · rintro ⟨r, c, hmem, hlit⟩
      obtain ⟨k, hk, b, hb, hbit, hr, hc⟩ := (mem_spritePixels ..).mp hmem
      exact ⟨k, hk, b, r, c, hb, hbit, hr, hc, by simpa [hpixel, hmem] using hlit⟩
    · rintro ⟨k, hk, b, r, c, hb, hbit, hr, hc, hclear⟩
      have hmem := (mem_spritePixels ..).mpr ⟨k, hk, b, hb, hbit, hr, hc⟩
      exact ⟨r, c, hmem, by simp [hpixel, hmem, hclear]⟩

/-! ### The instructions -/

/-- Settles O43: the cleared frame buffer shows no pixel, and CLS writes nothing else but PC. -/
theorem clearScreenClearsEveryPixel : Obligations.ClearScreenClearsEveryPixel := fun s =>
  ⟨decodeOfEncodeGivesTheInstruction .cls rfl, _, rfl, FrameBuffer.pixel_cleared, rfl, s.setFb_readByte FrameBuffer.cleared⟩

theorem exec_drw_of_memRead_ok (h : s.memRead s.dataAddress n = .ok rows) :
    exec (.drw x y n) s =
      .next ((s.setFb (drawSprite s.fb (s.getV x) (s.getV y) rows).1).setV regF
        (collisionFlag (drawSprite s.fb (s.getV x) (s.getV y) rows).2)).next := by
  simp only [exec, execDrw, h, except_map_ok, State.commit_ok]

theorem exec_drw_of_memRead_error (h : s.memRead s.dataAddress n = .error r) :
    exec (.drw x y n) s = .next (s.haltAt (encode (.drw x y n)) r) := by
  simp only [exec, execDrw, h, except_map_error, State.commit_error]

/-- The sprite that DRW reads covers the pixels of its rows in memory. -/
theorem mem_spritePixels_iff_covered (s : State) (x0 y0 n : Nat) (r : Fin 32) (c : Fin 64) :
    (r, c) ∈ spritePixels x0 y0 ((List.range n).map fun k => s.readByte (s.dataAddress + k)) ↔
      Covered s x0 y0 n r c := by
  simp [mem_spritePixels, Covered]

/-- Settles O44: DRW draws the rows it reads as one range, and writes the collision to VF last. -/
theorem drawInvertsTheCoveredPixelsAndReportsCollision :
    Obligations.DrawInvertsTheCoveredPixelsAndReportsCollision := by
  intro x y n s hn
  rw [field4_eq_regField, field4_eq_regField]
  refine ⟨decodeOfEncodeGivesTheInstruction (.drw x y n) (decide_eq_true hn), fun hin => ?_, fun hout => ?_⟩
  · have hlen : ((List.range n).map fun k => s.readByte (s.dataAddress + k)).length ≤ 32 := by
      rw [List.length_map, List.length_range]
      omega
    have hpixel := pixel_drawSprite s.fb (s.getV x) (s.getV y) hlen
    have hcol := collision_drawSprite s.fb (s.getV x) (s.getV y) hlen
    have hcovered := mem_spritePixels_iff_covered s (s.getV x).toNat (s.getV y).toNat n
    simp only [hcovered] at hcol
    refine ⟨_, exec_drw_of_memRead_ok (memRead_eq_readBytes hin), fun r c => ⟨fun hcov => ?_, fun hcov => ?_⟩,
      fun hlit => ?_, fun hclear => ?_, fun r hr => State.getV_setV_other _ _ _ _ hr, rfl, fun _ => rfl⟩
    · exact (hpixel r c).trans (by simp [(hcovered r c).mpr hcov])
    · exact (hpixel r c).trans (by simp [(hcovered r c).not.mpr hcov])
    · rw [State.next_getV, State.getV_setV_same, hcol.mpr hlit]
      rfl
    · rw [State.next_getV, State.getV_setV_same, Bool.eq_false_iff.mpr fun h => hclear (hcol.mp h)]
      rfl
  · exact faultsWith_of_exec_eq_haltAt (exec_drw_of_memRead_error (s.memRead_error _ _ hout))

end Sys2Proof.Machine
end

section
/-! PROOFS. Family 44_timers_keys.md: the key skips (R249 to R251), the timer transfers (R252, R254, R255) and the key wait
(R253). -/

namespace Sys2Proof.Machine

open Sys2Proof.Stated

variable {x : Reg} {s : State}

/-! ### The key wait -/

/-- The search goes through the keys in rising order (R253). -/
theorem leastPressed_eq_some_iff (keys : Keys) (k : Reg) :
    leastPressed keys = some k ↔ keys[k] = true ∧ ∀ j < k, keys[j] = false := by
  rw [leastPressed, ← Fin.find?_eq_find?_finRange]
  exact Fin.find?_eq_some_iff

theorem exec_ldVxK_of_pressed {k : Reg} (h : leastPressed s.keys = some k) :
    exec (.ldVxK x) s = .next (s.setV x (toByte k.val)).next := by
  simp only [exec, execLdVxK, h]

theorem exec_ldVxK_of_none (h : leastPressed s.keys = none) : exec (.ldVxK x) s = .next s := by
  simp only [exec, execLdVxK, h]

/-- Settles O47: a key number fits the byte that stores it, and without a pressed key the search answers none. -/
theorem keyWaitStoresTheLeastKeyOrHolds : Obligations.KeyWaitStoresTheLeastKeyOrHolds := by
  intro x s
  rw [field4_eq_regField]
  refine ⟨decodeOfEncodeGivesTheInstruction (.ldVxK x) rfl, fun k hk hleast => ?_, fun hfree => ?_⟩
  · have hfits : (toByte k.val).toNat = k.val := toByte_toNat_of_lt (k.isLt.trans (by decide))
    exact ⟨_, exec_ldVxK_of_pressed ((leastPressed_eq_some_iff s.keys k).mpr ⟨hk, hleast⟩), writesReg_setV s hfits⟩
  · exact exec_ldVxK_of_none ((leastPressed_none s.keys).mpr hfree)

/-! ### The key skips -/

theorem State.skip_pc_eq_add (s : State) (c : Bool) : (s.skip c).pc = s.pc + (if c then 4 else 2) :=
  (apply_ite (s.pc + ·) _ _ _).symm

theorem State.skip_not_pc_eq_add (s : State) (c : Bool) : (s.skip !c).pc = s.pc + (if c then 2 else 4) := by
  cases c <;> rfl

theorem exec_skp_of_lt (h : (s.getV x).toNat < 16) : exec (.skp x) s = .next (s.skip s.keys[(s.getV x).toNat]) := by
  simp only [exec, execSkp, s.keyPressed_ok _ h, except_map_ok, State.commit_ok]

theorem exec_sknp_of_lt (h : (s.getV x).toNat < 16) :
    exec (.sknp x) s = .next (s.skip !s.keys[(s.getV x).toNat]) := by
  simp only [exec, execSknp, s.keyPressed_ok _ h, except_map_ok, State.commit_ok]

theorem exec_skp_of_ge (h : 16 ≤ (s.getV x).toNat) :
    exec (.skp x) s = .next (s.haltAt (encode (.skp x)) ⟨.outOfBoundsAccess, .key (s.getV x)⟩) := by
  simp only [exec, execSkp, s.keyPressed_error _ h, except_map_error, State.commit_error]

theorem exec_sknp_of_ge (h : 16 ≤ (s.getV x).toNat) :
    exec (.sknp x) s = .next (s.haltAt (encode (.sknp x)) ⟨.outOfBoundsAccess, .key (s.getV x)⟩) := by
  simp only [exec, execSknp, s.keyPressed_error _ h, except_map_error, State.commit_error]

/-- Settles O29: up to 15 the lookup answers the key's level, and above 15 its fault is the instruction's. -/
theorem skipsOnAKey : Obligations.SkipsOnAKey := by
  intro x s
  rw [field4_eq_regField]
  refine ⟨decodeOfEncodeGivesTheInstruction (.skp x) rfl, decodeOfEncodeGivesTheInstruction (.sknp x) rfl,
    fun hkey => ⟨?_, ?_⟩, fun hover => ⟨?_, ?_⟩⟩
  · exact ⟨_, exec_skp_of_lt hkey, s.skip_pc_eq_add _, onlyPc_skip s _⟩
  · exact ⟨_, exec_sknp_of_lt hkey, s.skip_not_pc_eq_add _, onlyPc_skip s _⟩
  · exact faultsWith_of_exec_eq_haltAt (exec_skp_of_ge hover)
  · exact faultsWith_of_exec_eq_haltAt (exec_sknp_of_ge hover)

/-! ### The timer transfers -/

/-- `beep_out` as R255 words it, on the number that ST holds. -/
theorem State.beepOut_iff_toNat (s : State) : s.beepOut = true ↔ s.st.toNat ≠ 0 :=
  decide_eq_true_iff.trans BitVec.toNat_ne_iff_ne.symm

/-- Settles O46: each transfer is one write, and the edge of ST is that of its old and its written value. -/
theorem timerTransfers : Obligations.TimerTransfers := by
  intro x s
  rw [field4_eq_regField]
  have hdec := decodeOfEncodeGivesTheInstruction
  refine ⟨hdec (.ldVxDt x) rfl, hdec (.ldDtVx x) rfl, hdec (.ldStVx x) rfl, ?_, ?_, ?_⟩
  · exact ⟨_, rfl, writesReg_setV s rfl⟩
  · exact ⟨_, rfl, rfl, rfl, s.setDt_readByte (s.getV x)⟩
  · exact ⟨_, rfl, rfl, (s.setSt (s.getV x)).next.beepOut_iff_toNat, beepEdge_rise _ _, beepEdge_fall _ _,
      beepEdge_level _ _, rfl, s.setSt_readByte (s.getV x)⟩

end Sys2Proof.Machine
end

section
/-! PROOFS. Family 60_exceptions.md, part 1: the iteration (R293, R297 to R300) and its faults (R282, R283, R286). What stage (f),
the instruction cycle and an iteration can do is said once; the statements follow from it. -/

namespace Sys2Proof.Machine

open Sys2Proof.Stated

variable {i : Instr} {s t u : State}

/-! ### Stage (f) -/

/-- A completed step's frame is driven, and then a failed `present` halts (R299). -/
theorem State.present_of_running (h : s.status = .running) (ok : Bool) :
    s.present ok = { s with
      frameOut := some s.fb
      status := if ok then .running else .halted ⟨.hostAdapterError, none, none, .adapter .display⟩ } := by
  cases ok
  · simp [State.present, h, State.halt]
  · simp [State.present, h]

/-- A step that took a fault ends its iteration without a frame (R283). -/
theorem State.present_of_not_running (h : s.status ≠ .running) (ok : Bool) :
    s.present ok = { s with frameOut := none } := by
  unfold State.present
  split
  · next hrunning => exact absurd hrunning h
  · rfl
  · rfl

/-! ### The instruction cycle -/

theorem runInstruction_of_decode (hin : s.pc.toNat + 2 ≤ memSize) (h : decode (wordAtPc s) = .ok i) :
    runInstruction s = exec i s := by
  obtain ⟨hout, -⟩ | ⟨-, ⟨e, he, -⟩ | ⟨j, hj, hrun⟩⟩ := runInstruction_cases s
  · exact absurd hin (Nat.not_le_of_lt hout)
  · cases h.symm.trans he
  · obtain rfl : i = j := Except.ok.inj (h.symm.trans hj)
    exact hrun

/-- An instruction that does not fault leaves STATUS (R42). -/
theorem Effect.status (h : Effect i s t) : t.status = s.status := by
  cases i
  case ret =>
    obtain ⟨below, top, -, rfl⟩ := h
    rfl
  case call | ldB | ldMemVx =>
    obtain ⟨-, h⟩ := h
    rw [h]
  case skp | sknp | seImm | sneImm | seReg | sneReg =>
    obtain ⟨h, -⟩ := h
    rw [h]
  case ldVxK =>
    obtain rfl | h := h
    · rfl
    · rw [h]
  all_goals rw [h]

/-- The instruction cycle takes a fault whose record names PC and the word there, none where the fetch itself faulted, and
changes nothing else (R282, R286); or it completes the instruction there, which leaves STATUS. -/
theorem runInstruction_halts_or_completes (h : runInstruction s = .next u) :
    (∃ f, u = s.halt f ∧ f.pc = some s.pc ∧ f.word = if s.pc.toNat ≤ 4094 then some (wordAtPc s) else none) ∨
      (s.pc.toNat ≤ 4094 ∧ ∃ i, decode (wordAtPc s) = .ok i ∧ exec i s = .next u ∧ u.status = s.status) := by
  obtain ⟨hout, hrun⟩ | ⟨hin, ⟨e, -, hrun⟩ | ⟨i, hi, hrun⟩⟩ := runInstruction_cases s <;> rw [hrun] at h
  · cases h
    exact .inl ⟨_, rfl, rfl, (if_neg (by unfold memSize at hout; omega)).symm⟩
  · cases h
    exact .inl ⟨_, rfl, rfl, (if_pos (Nat.le_of_add_le_add_right hin)).symm⟩
  · have hpc : s.pc.toNat ≤ 4094 := Nat.le_of_add_le_add_right hin
    obtain ⟨r, rfl⟩ | he := exec_effect i s u h
    · obtain ⟨hword, -⟩ := encodeOfDecodedWordGivesTheWord _ i hi
      exact .inl ⟨_, rfl, rfl, (congrArg some hword).trans (if_pos hpc).symm⟩
    · exact .inr ⟨hpc, i, hi, h, he.status⟩

/-! ### The iteration -/

/-- The names that the statements give to an iteration's input and to the state before its step. -/
theorem beforeStep_eq_mk {inp : HostInput} (h : s.beforeStep = (inp, t)) :
    inp = s.beforeStep.1 ∧ t = s.beforeStep.2 := by
  simp [h]

theorem runIteration_of_quit (hq : s.beforeStep.1.quit = true) : runIteration s = .next s.beforeStep.2.quitNow := by
  simp [runIteration, hq]

theorem runIteration_of_runInstruction (hq : s.beforeStep.1.quit = false)
    (hrun : runInstruction s.beforeStep.2 = .next u) :
    runIteration s = .next (u.present s.beforeStep.1.presentOk) := by
  simp [runIteration, hq, hrun]

/-- Settles O10: stage (d) is the last of the stages before the step, and the quit signal is tested right after it. -/
theorem quitEndsTheIterationBeforeTheStep : Obligations.QuitEndsTheIterationBeforeTheStep := by
  intro s s1 inp hr hb
  obtain ⟨rfl, rfl⟩ := beforeStep_eq_mk hb
  exact ⟨rfl, fun hq => (step_running hr).trans (runIteration_of_quit hq)⟩

/-- Settles O11: the step completed, so the iteration reaches stage (f). -/
theorem stageFPresentsTheFrameOrHalts : Obligations.StageFPresentsTheFrameOrHalts := by
  intro s s1 u inp hr hb hq hrun hu
  obtain ⟨rfl, rfl⟩ := beforeStep_eq_mk hb
  refine ⟨_, (step_running hr).trans (runIteration_of_runInstruction hq hrun), ?_⟩
  rw [State.present_of_running hu]
  exact ⟨rfl, rfl, rfl⟩

/-- Settles O6: stages (a) to (d) leave PC and the word there, so stage (e) executes the decoded instruction. -/
theorem stepRunsTheDecodedInstruction : Obligations.StepRunsTheDecodedInstruction := by
  intro s s1 inp i hr hb hq hpc hi
  obtain ⟨rfl, rfl⟩ := beforeStep_eq_mk hb
  rw [← wordAtPc_beforeStep] at hi
  rw [← s.beforeStep_pc] at hpc
  have hrun := runInstruction_of_decode (Nat.add_le_add_right hpc 2) hi
  obtain ⟨t, ht⟩ := exec_answers_next i s.beforeStep.2
  have hstep := (step_running hr).trans (runIteration_of_runInstruction hq (hrun.trans ht))
  refine ⟨t, ht, fun hrunning hok => ?_, fun hrunning hok => ?_, fun hhalted => ?_⟩
  · rw [hstep, State.present_of_running hrunning, hok, ← hrunning]
    rfl
  · rw [hstep, State.present_of_running hrunning, hok]
    rfl
  · rw [hstep, State.present_of_not_running hhalted]

/-- Settles O13: a quit signal and a step that is not Running clear the frame, and stage (f) drives one. -/
theorem onlyStageFDrivesAFrame : Obligations.OnlyStageFDrivesAFrame := by
  intro s s1 t inp hb ht
  obtain ⟨rfl, rfl⟩ := beforeStep_eq_mk hb
  obtain ⟨-, ⟨hq, rfl⟩ | ⟨hq, u, hu, rfl⟩⟩ := step_cases s t ht
  · simp [hq]
  · by_cases hrunning : u.status = .running
    · simp [hq, hu, hrunning, State.present_of_running]
    · simp [hu, hrunning, State.present_of_not_running]

/-- Settles O14: the record is that of the instruction cycle, or of stage (f) after a completed step. -/
theorem faultsArePrecise : Obligations.FaultsArePrecise := by
  intro s s1 t inp f hb ht hf
  obtain ⟨rfl, rfl⟩ := beforeStep_eq_mk hb
  obtain ⟨hr, ⟨-, rfl⟩ | ⟨-, u, hu, rfl⟩⟩ := step_cases s t ht
  · cases hf
  by_cases hrunning : u.status = .running
  · right
    rw [State.present_of_running hrunning] at hf ⊢
    cases hok : s.beforeStep.1.presentOk <;> rw [hok] at hf <;> cases hf
    exact ⟨rfl, rfl, rfl, u, hu, hrunning, rfl⟩
  · left
    rw [State.present_of_not_running hrunning] at hf ⊢
    obtain ⟨g, rfl, hpc, hword⟩ | ⟨-, i, -, -, hstatus⟩ := runInstruction_halts_or_completes hu
    · cases hf
      rw [wordAtPc_beforeStep, State.beforeStep_pc] at hword
      exact ⟨hpc.trans (congrArg some s.beforeStep_pc), hword, rfl⟩
    · exact absurd (hstatus.trans (s.beforeStep_status.trans hr)) hrunning

/-- Settles O48: no key is pressed, so Fx0A leaves the state of stages (a) to (d), and with it PC and the word there. -/
theorem waitingForAKeyIsACompleteStep : Obligations.WaitingForAKeyIsACompleteStep := by
  intro s s1 inp x hr hb hq hok hpc hw hkeys
  have hdec : decode (wordAtPc s) = .ok (.ldVxK x) := by
    rw [hw, field4_eq_regField]
    exact decodeOfEncodeGivesTheInstruction (.ldVxK x) rfl
  obtain ⟨t, ht, hdriven, -⟩ := stepRunsTheDecodedInstruction s s1 inp (.ldVxK x) hr hb hq hpc hdec
  obtain ⟨rfl, rfl⟩ := beforeStep_eq_mk hb
  obtain rfl : s.beforeStep.2 = t :=
    Host.Outcome.next.inj ((exec_ldVxK_of_none ((leastPressed_none _).mpr hkeys)).symm.trans ht)
  have hrunning := s.beforeStep_status.trans hr
  exact ⟨_, hdriven hrunning hok, by rw [State.beforeStep_fb], hrunning, s.beforeStep_pc, wordAtPc_beforeStep s⟩

end Sys2Proof.Machine
end

section
/-! PROOFS. Family 60_exceptions.md, part 2: the table of R284. Each instruction faults in its own case with its own record, and
completes in every other case. -/

namespace Sys2Proof.Machine

open Sys2Proof.Stated

variable {i : Instr} {s t : State}

/-- The instruction takes the fault named, with no write, and where none is named it completes with STATUS as it was. -/
def FaultsExactlyWith (i : Instr) (s : State) (own : Option Raise) : Prop :=
  (∀ r, own = some r → TakesFault i s (encode i) r.kind r.info) ∧
    (own = none → ∃ t, exec i s = .next t ∧ t.status = s.status)

/-- An instruction outside the table completes. -/
theorem FaultsExactlyWith.never (h : exec i s = .next t) (hstatus : t.status = s.status) :
    FaultsExactlyWith i s none :=
  ⟨fun _ hr => (nomatch hr), fun _ => ⟨t, h, hstatus⟩⟩

/-- An instruction of the table halts in its case and completes in every other. -/
theorem FaultsExactlyWith.inCase {p : Prop} [Decidable p] {r : Raise}
    (hfault : p → exec i s = .next (s.haltAt (encode i) r))
    (hok : ¬p → ∃ t, exec i s = .next t ∧ t.status = s.status) :
    FaultsExactlyWith i s (if p then some r else none) := by
  by_cases h : p
  · rw [if_pos h]
    refine ⟨fun r' hr' => ?_, fun hnone => nomatch hnone⟩
    obtain rfl : r = r' := Option.some.inj hr'
    exact hfault h
  · rw [if_neg h]
    exact ⟨fun r' hr' => (nomatch hr'), fun _ => hok h⟩

theorem State.draw_status (s : State) : s.draw.2.status = s.status := by
  rw [State.draw_frame]

theorem State.loadRegs_status (s : State) (k : Nat) (bs : List Byte) : (s.loadRegs k bs).status = s.status := by
  rw [State.loadRegs_frame]

/-- Settles O15: the case of the table is the case in which the instruction's one checked operation answers its fault. -/
theorem everyInstructionFaultsExactlyInItsOwnCase : Obligations.EveryInstructionFaultsExactlyInItsOwnCase := by
  intro i s hdepth
  change FaultsExactlyWith i s (ownFault i s)
  cases i
  case ret =>
    refine .inCase (fun hempty => exec_ret_of_empty (List.eq_nil_of_length_eq_zero hempty)) fun hsome => ?_
    obtain hempty | ⟨below, top, htop⟩ := List.eq_nil_or_concat' s.stack
    · exact absurd (congrArg List.length hempty) hsome
    · exact ⟨_, exec_ret_of_top htop, rfl⟩
  case call nnn =>
    refine .inCase (fun hfull => ?_) fun hroom => ⟨_, exec_call_of_lt nnn (Nat.lt_of_le_of_ne hdepth hroom), rfl⟩
    rw [← hfull]
    exact exec_call_of_ge nnn hfull.ge
  case drw x y n =>
    exact .inCase (fun hout => exec_drw_of_memRead_error (s.memRead_error _ _ hout))
      fun hin => ⟨_, exec_drw_of_memRead_ok (s.memRead_ok _ _ (Nat.le_of_not_lt hin)), rfl⟩
  case skp x =>
    exact .inCase exec_skp_of_ge fun hkey => ⟨_, exec_skp_of_lt (Nat.lt_of_not_le hkey), rfl⟩
  case sknp x =>
    exact .inCase exec_sknp_of_ge fun hkey => ⟨_, exec_sknp_of_lt (Nat.lt_of_not_le hkey), rfl⟩
  case addI x =>
    exact .inCase exec_addI_of_gt fun hfits => ⟨_, exec_addI_of_le (Nat.le_of_not_lt hfits), rfl⟩
  case ldB x =>
    exact .inCase (fun hout => exec_ldB_of_memWrite_error (s.memWrite_error _ _ hout))
      fun hin => ⟨_, exec_ldB_of_memWrite_ok (s.memWrite_ok _ _ (Nat.le_of_not_lt hin)), rfl⟩
  case ldMemVx x =>
    have hlen := s.length_regBlock x
    refine .inCase (fun hout => ?_) fun hin => ?_
    · have hwrite := s.memWrite_error s.dataAddress (s.regBlock x) (by rwa [hlen])
      rw [hlen] at hwrite
      exact exec_ldMemVx_of_memWrite_error hwrite
    · have hwrite := s.memWrite_ok s.dataAddress (s.regBlock x) (by rw [hlen]; exact Nat.le_of_not_lt hin)
      exact ⟨_, exec_ldMemVx_of_memWrite_ok hwrite, rfl⟩
  case ldVxMem x =>
    exact .inCase (fun hout => exec_ldVxMem_of_memRead_error (s.memRead_error _ _ hout))
      fun hin => ⟨_, exec_ldVxMem_of_memRead_ok (s.memRead_ok _ _ (Nat.le_of_not_lt hin)), s.loadRegs_status 0 _⟩
  case rnd x nn => exact .never rfl s.draw_status
  case ldVxK x =>
    cases hkey : leastPressed s.keys with
    | none => exact .never (exec_ldVxK_of_none hkey) rfl
    | some k => exact .never (exec_ldVxK_of_pressed hkey) rfl
  all_goals exact .never rfl rfl

end Sys2Proof.Machine
end

section
/-! PROOFS. Family 60_exceptions.md, part 3: the time of stages (a) to (d) (R290, R294 to R297). What the passing of some seconds
does to ACC and the timers is one predicate, `TimePassed`, and two of them in a row are one over the sum of the seconds. -/

namespace Sys2Proof.Machine

open Sys2Proof.Stated

variable {s t u : State} {d e : Rat} {deltas : List Rat}

/-! ### Stage (c) -/

/-- Settles O49: each timer is counted down by one, on natural numbers with their floor of 0. -/
theorem tickDecrementsBothTimers : Obligations.TickDecrementsBothTimers := fun s =>
  ⟨fun _ => countDown_toNat s.dt, fun h => by rw [State.tick_dt, countDown_toNat, h],
    fun _ => countDown_toNat s.st, fun h => by rw [State.tick_st, countDown_toNat, h], rfl⟩

theorem ticksDue_eq_floor {acc : Rat} (h : 0 ≤ acc) : ticksDue acc = ⌊acc * 60⌋₊ := by
  obtain ⟨hle, hlt⟩ := ticksDue_spec acc h
  rw [div_le_iff₀ (by norm_num)] at hle
  rw [lt_div_iff₀ (by norm_num)] at hlt
  exact ((Nat.floor_eq_iff (by positivity)).mpr ⟨hle, hlt⟩).symm

theorem State.catchUp_of_ticksDue {n : Nat} (h : ticksDue s.acc = n) :
    s.catchUp = State.tickN n { s with acc := s.acc - n / 60 } := by
  rw [State.catchUp, h, spendTicks_eq]

theorem State.catchUp_dt (s : State) : s.catchUp.dt.toNat = s.dt.toNat - ticksDue s.acc :=
  State.tickN_dt _ _

theorem State.catchUp_st (s : State) : s.catchUp.st.toNat = s.st.toNat - ticksDue s.acc :=
  State.tickN_st _ _

/-- Below one tick the loop of R296 has ended. -/
theorem State.catchUp_of_lt_tick (h0 : 0 ≤ s.acc) (h : s.acc < 1 / 60) : s.catchUp = s := by
  have hnone : ticksDue s.acc = 0 := by
    rw [ticksDue_eq_floor h0, Nat.floor_eq_zero]
    linarith
  rw [State.catchUp_of_ticksDue hnone]
  simp [State.tickN]

/-- From one tick on the loop of R296 takes a tick and goes on. -/
theorem State.catchUp_of_tick_le (h : 1 / 60 ≤ s.acc) :
    s.catchUp = State.catchUp { s.tick with acc := s.acc - 1 / 60 } := by
  have hsucc : ticksDue s.acc = ticksDue (s.acc - 1 / 60) + 1 := by
    have h1 : 1 ≤ s.acc * 60 := by linarith
    rw [ticksDue_eq_floor (by linarith), ticksDue_eq_floor (by linarith), sub_mul, one_div_mul_cancel (by norm_num),
      Nat.floor_sub_one, Nat.sub_add_cancel ((Nat.one_le_floor_iff _).mpr h1)]
  rw [State.catchUp_of_ticksDue hsucc, State.catchUp_of_ticksDue rfl, State.tickN]
  have hacc : s.acc - ((ticksDue (s.acc - 1 / 60) + 1 : Nat) : Rat) / 60 =
      s.acc - 1 / 60 - (ticksDue (s.acc - 1 / 60) : Rat) / 60 := by
    push_cast
    ring
  rw [hacc]
  rfl

/-- Settles O50: the loop's two equations, and the count of its ticks as the floor. -/
theorem stageCIsTheCatchUpLoop : Obligations.StageCIsTheCatchUpLoop := by
  intro s h0
  have hticks := ticksDue_eq_floor h0
  refine ⟨State.catchUp_of_lt_tick h0, State.catchUp_of_tick_le, State.catchUp_accBounds h0, ?_, ?_, fun hlt => ?_⟩
  · rw [State.catchUp_acc, spendTicks_eq, hticks]
  · rw [State.catchUp_dt, hticks]
  · have hlt' : s.acc * 60 < (180 + 1 : Nat) := by
      push_cast
      linarith
    exact Nat.le_of_lt_succ ((Nat.floor_lt (by positivity)).mpr hlt')

/-! ### The passing of time -/

/-- From s to t the core has spent d more seconds: the ticks due in ACC and d together, the rest left in ACC (R296). -/
structure TimePassed (s t : State) (d : Rat) : Prop where
  dt : t.dt.toNat = s.dt.toNat - ⌊(s.acc + d) * 60⌋₊
  st : t.st.toNat = s.st.toNat - ⌊(s.acc + d) * 60⌋₊
  acc : t.acc = s.acc + d - (⌊(s.acc + d) * 60⌋₊ : Rat) / 60

/-- No time has passed when less than one tick is in ACC. -/
theorem TimePassed.refl (h : AccBounds s) : TimePassed s s 0 := by
  obtain ⟨-, hlt⟩ := h
  have hnone : ⌊s.acc * 60⌋₊ = 0 := by
    rw [Nat.floor_eq_zero]
    linarith
  constructor <;> simp [hnone]

/-- Time adds up: the ticks already taken are the difference of the two floors (R301). -/
theorem TimePassed.trans (h : TimePassed s t d) (h' : TimePassed t u e) (he : 0 ≤ e) : TimePassed s u (d + e) := by
  obtain ⟨hdt, hst, hacc⟩ := h
  obtain ⟨hdt', hst', hacc'⟩ := h'
  have hle : ⌊(s.acc + d) * 60⌋₊ ≤ ⌊(s.acc + (d + e)) * 60⌋₊ := Nat.floor_le_floor (by linarith)
  have hrest : ⌊(t.acc + e) * 60⌋₊ = ⌊(s.acc + (d + e)) * 60⌋₊ - ⌊(s.acc + d) * 60⌋₊ := by
    rw [← Nat.floor_sub_natCast, hacc]
    congr 1
    ring
  rw [hrest] at hdt' hst' hacc'
  refine ⟨by omega, by omega, ?_⟩
  rw [hacc', hacc, Nat.cast_sub hle]
  ring

theorem State.passTime_timePassed (hacc : 0 ≤ s.acc) (hd : 0 ≤ d) : TimePassed s (s.passTime d) (min d 3) := by
  have hsum : (s.accumulate d).acc = s.acc + min d 3 := by
    rw [State.accumulate_acc, addSeconds_eq, capDelta_eq]
  have hticks := ticksDue_eq_floor (State.accumulate_acc_nonneg d hd hacc)
  rw [hsum] at hticks
  refine ⟨?_, ?_, ?_⟩
  · rw [State.passTime, State.catchUp_dt, hsum, hticks, State.accumulate_dt]
  · rw [State.passTime, State.catchUp_st, hsum, hticks, State.accumulate_st]
  · rw [State.passTime, State.catchUp_acc, spendTicks_eq, hsum, hticks]

theorem State.passTime_accBounds (hacc : 0 ≤ s.acc) (hd : 0 ≤ d) : AccBounds (s.passTime d) :=
  State.catchUp_accBounds (State.accumulate_acc_nonneg d hd hacc)

theorem sum_capped_nonneg (hd : ∀ d ∈ deltas, 0 ≤ d) : 0 ≤ (deltas.map (fun d => min d 3)).sum :=
  List.sum_nonneg <| by simpa using hd

theorem timePassed_foldl_passTime (hs : AccBounds s) (hd : ∀ d ∈ deltas, 0 ≤ d) :
    TimePassed s (deltas.foldl State.passTime s) (deltas.map (fun d => min d 3)).sum := by
  induction deltas generalizing s with
  | nil => exact .refl hs
  | cons d rest ih =>
    obtain ⟨hd, hrest⟩ := List.forall_mem_cons.mp hd
    obtain ⟨hacc, -⟩ := hs
    have hlater := ih (State.passTime_accBounds hacc hd) hrest
    exact (State.passTime_timePassed hacc hd).trans hlater (sum_capped_nonneg hrest)

/-! ### Stages (a) to (d) -/

theorem State.takeInput_of_cons {inp : HostInput} {rest : List HostInput} (h : s.hostInputs = inp :: rest) :
    s.takeInput = (inp, { s with hostInputs := rest, iterations := s.iterations + 1 }) := by
  simp [State.takeInput, h]

theorem State.takeInput_of_nil (h : s.hostInputs = []) :
    s.takeInput = (Config.hostInput s.iterations, { s with iterations := s.iterations + 1 }) := by
  simp [State.takeInput, h]

theorem State.takeInput_dt (s : State) : s.takeInput.2.dt = s.dt := by
  rw [State.takeInput_frame]

theorem State.takeInput_st (s : State) : s.takeInput.2.st = s.st := by
  rw [State.takeInput_frame]

theorem State.takeInput_iterations (s : State) : s.takeInput.2.iterations = s.iterations + 1 := by
  unfold State.takeInput
  split <;> rfl

/-- The state before the step is that of stages (a) to (c) on the input taken, with the keys latched. -/
theorem State.beforeStep_snd (s : State) :
    s.beforeStep.2 = (s.takeInput.2.passTime (deltaIn s.takeInput.1)).latchKeys s.takeInput.1.keys := rfl

theorem State.beforeStep_hostInputs (s : State) : s.beforeStep.2.hostInputs = s.takeInput.2.hostInputs := by
  rw [State.beforeStep_snd, State.latchKeys_hostInputs, State.passTime_frame]

theorem State.beforeStep_iterations (s : State) : s.beforeStep.2.iterations = s.iterations + 1 := by
  rw [State.beforeStep_snd, State.latchKeys_iterations, State.passTime_frame, State.takeInput_iterations]

/-- Stages (a) to (d) spend the capped delta of the input taken. -/
theorem State.beforeStep_timePassed (h : 0 ≤ s.acc) :
    TimePassed s s.beforeStep.2 (min ((s.beforeStep.1.deltaNum : Rat) / s.beforeStep.1.deltaDen) 3) := by
  rw [← deltaIn_eq]
  obtain ⟨hdt, hst, hacc⟩ :=
    State.passTime_timePassed (h.trans_eq s.takeInput_acc.symm) (deltaIn_nonneg s.takeInput.1)
  rw [State.takeInput_acc] at hdt hst hacc
  rw [State.takeInput_dt] at hdt
  rw [State.takeInput_st] at hst
  exact ⟨hdt, hst, hacc⟩

/-- Settles O7: the time spent by stages (a) to (c), and the fields that the stages leave alone. -/
theorem stagesAToDPassTimeAndLatchKeys : Obligations.StagesAToDPassTimeAndLatchKeys := by
  intro s h
  refine ⟨fun inp rest hq => ?_, fun hq => ?_, _, _, rfl, rfl, ?_⟩
  · have htaken := State.takeInput_of_cons hq
    exact ⟨congrArg Prod.fst htaken, by rw [State.beforeStep_hostInputs, htaken]⟩
  · have htaken := State.takeInput_of_nil hq
    exact ⟨congrArg Prod.fst htaken, by rw [State.beforeStep_hostInputs, htaken, hq]⟩
  · obtain ⟨hdt, hst, hacc⟩ := State.beforeStep_timePassed h
    refine ⟨hacc, hdt, hst, s.beforeStep_keys, ?_⟩
    rw [← State.beforeStep_iterations]
    exact s.beforeStep_frame

end Sys2Proof.Machine
end

section
/-! PROOFS. Family 60_exceptions.md, part 4: what a whole iteration does to the timers, and with it the audio calls (R291) and the
time of runs of steps (R301). -/

namespace Sys2Proof.Machine

open Sys2Proof.Stated

variable {s t : State} {d : Rat} {deltas : List Rat}

/-! ### The timers in stages (e) and (f) -/

/-- An iteration is stages (a) to (d), then at most the instruction at PC, then a change of STATUS and `frame_out` alone. -/
theorem runIteration_eq_next (h : runIteration s = .next t) :
    ∃ u, (u = s.beforeStep.2 ∨ s.beforeStep.1.quit = false ∧ s.pc.toNat ≤ 4094 ∧
        ∃ i, decode (wordAtPc s) = .ok i ∧ exec i s.beforeStep.2 = .next u) ∧
      t = { u with status := t.status, frameOut := t.frameOut } := by
  cases hq : s.beforeStep.1.quit
  · obtain ⟨u, hu⟩ := runInstruction_answers_next s.beforeStep.2
    obtain rfl : _ = t := Host.Outcome.next.inj ((runIteration_of_runInstruction hq hu).symm.trans h)
    obtain ⟨f, rfl, -⟩ | ⟨hpc, i, hi, hexec, -⟩ := runInstruction_halts_or_completes hu
    · exact ⟨_, .inl rfl, State.present_frame _ _⟩
    · rw [wordAtPc_beforeStep] at hi
      rw [State.beforeStep_pc] at hpc
      exact ⟨u, .inr ⟨rfl, hpc, i, hi, hexec⟩, State.present_frame _ _⟩
  · obtain rfl : _ = t := Host.Outcome.next.inj ((runIteration_of_quit hq).symm.trans h)
    exact ⟨_, .inl rfl, rfl⟩

/-- No instruction but Fx15 changes DT (R254). -/
theorem exec_dt {i : Instr} (h : exec i s = .next t) (hi : ∀ x, i ≠ .ldDtVx x) : t.dt = s.dt := by
  obtain ⟨-, -, hdt, -⟩ := onlyTheNamedInstructionsWriteEachElement i s t h
  by_contra hne
  obtain ⟨x, hx⟩ := hdt hne
  exact hi x hx

/-- No instruction but Fx18 changes ST (R255). -/
theorem exec_st {i : Instr} (h : exec i s = .next t) (hi : ∀ x, i ≠ .ldStVx x) : t.st = s.st := by
  obtain ⟨-, -, -, hst, -⟩ := onlyTheNamedInstructionsWriteEachElement i s t h
  by_contra hne
  obtain ⟨x, hx⟩ := hst hne
  exact hi x hx

theorem runIteration_dt (h : runIteration s = .next t) (hn : ∀ x, decode (wordAtPc s) ≠ .ok (.ldDtVx x)) :
    t.dt = s.beforeStep.2.dt := by
  obtain ⟨u, hu, ht⟩ := runIteration_eq_next h
  have htu : t.dt = u.dt := by rw [ht]
  obtain rfl | ⟨-, -, i, hi, hexec⟩ := hu
  · exact htu
  · exact htu.trans <| exec_dt hexec fun x hx => hn x (hx ▸ hi)

/-- An iteration in which no Fx18 executes leaves ST to the ticks. -/
theorem runIteration_st (h : runIteration s = .next t)
    (hn : s.beforeStep.1.quit = true ∨ 4094 < s.pc.toNat ∨ ∀ x, decode (wordAtPc s) ≠ .ok (.ldStVx x)) :
    t.st = s.beforeStep.2.st := by
  obtain ⟨u, hu, ht⟩ := runIteration_eq_next h
  have htu : t.st = u.st := by rw [ht]
  obtain rfl | ⟨hq, hpc, i, hi, hexec⟩ := hu
  · exact htu
  obtain hquit | hout | hn := hn
  · cases hq.symm.trans hquit
  · exact absurd hpc (Nat.not_le_of_lt hout)
  · exact htu.trans <| exec_st hexec fun x hx => hn x (hx ▸ hi)

/-- An iteration that executes Fx18 leaves Vx in ST. -/
theorem runIteration_st_of_ldStVx {x : Reg} (h : runIteration s = .next t) (hq : s.beforeStep.1.quit = false)
    (hpc : s.pc.toNat ≤ 4094) (hi : decode (wordAtPc s) = .ok (.ldStVx x)) : t.st = s.getV x := by
  rw [← wordAtPc_beforeStep] at hi
  rw [← s.beforeStep_pc] at hpc
  have hrun := runInstruction_of_decode (Nat.add_le_add_right hpc 2) hi
  obtain rfl : _ = t := Host.Outcome.next.inj ((runIteration_of_runInstruction hq hrun).symm.trans h)
  rw [State.present_frame]
  exact congrArg (·[x]) s.beforeStep_v

/-! ### The audio calls -/

theorem State.beforeStep_st (s : State) : ∃ n, s.beforeStep.2.st.toNat = s.st.toNat - n := by
  have hst := (s.takeInput.2.accumulate (deltaIn s.takeInput.1)).catchUp_st
  rw [State.accumulate_st, State.takeInput_st] at hst
  exact ⟨_, hst⟩

/-- A timer is counted down to 0 exactly from 1. -/
theorem countDown_reaches_zero_iff (b : Byte) : b ≠ 0 ∧ countDown b = 0 ↔ b = 1 := by
  have hzero : (0 : Byte).toNat = 0 := rfl
  have hone : (1 : Byte).toNat = 1 := rfl
  rw [ne_eq, ← BitVec.toNat_inj, ← BitVec.toNat_inj, ← BitVec.toNat_inj, countDown_toNat]
  omega

/-- Settles O51: the ticks only lower ST, and of the instructions only Fx18 writes it. -/
theorem beepCallsFollowTheSoundTimer : Obligations.BeepCallsFollowTheSoundTimer := by
  refine ⟨fun s s1 inp hb => ?_, fun s => ?_⟩
  · obtain ⟨rfl, rfl⟩ := beforeStep_eq_mk hb
    obtain ⟨t, ht⟩ := runIteration_answers_next s
    obtain ⟨n, hn⟩ := s.beforeStep_st
    rw [s.beepCalls_next t ht, beepEdge_countDown _ _ n hn]
    refine ⟨fun hno => ?_, fun x hq hpc hi => ?_⟩
    · rw [runIteration_st ht hno, beepEdge_level _ _ .rfl, List.append_nil]
    · rw [runIteration_st_of_ldStVx ht hq hpc hi]
      rfl
  · rw [beepEdge_countDown s.st s.tick.st 1 (countDown_toNat s.st)]
    exact if_congr (countDown_reaches_zero_iff s.st) rfl rfl

/-! ### Runs of steps -/

/-- A step in which no timer is written spends the capped delta of its input. -/
theorem step_timePassed (hacc : 0 ≤ s.acc) (hn : NoTimerWrite s) (h : step s = .next t) :
    TimePassed s t (min ((s.beforeStep.1.deltaNum : Rat) / s.beforeStep.1.deltaDen) 3) := by
  obtain ⟨hr, -⟩ := step_cases s t h
  have hrun : runIteration s = .next t := (step_running hr).symm.trans h
  obtain ⟨hdt, hst, hacc⟩ := State.beforeStep_timePassed hacc
  rw [← runIteration_dt hrun fun x => (hn x).1] at hdt
  rw [← runIteration_st hrun (.inr (.inr fun x => (hn x).2))] at hst
  rw [← step_acc h] at hacc
  exact ⟨hdt, hst, hacc⟩

theorem timedRun_deltas_nonneg (h : TimedRun deltas s t) : ∀ d ∈ deltas, 0 ≤ d := by
  induction deltas generalizing s with
  | nil => simp
  | cons d rest ih =>
    obtain ⟨rfl, -, u, -, hrun⟩ := h
    exact List.forall_mem_cons.mpr ⟨by positivity, ih hrun⟩

theorem timedRun_timePassed (hs : AccBounds s) (h : TimedRun deltas s t) :
    TimePassed s t (deltas.map (fun d => min d 3)).sum := by
  induction deltas generalizing s with
  | nil =>
    obtain rfl : t = s := h
    exact .refl hs
  | cons d rest ih =>
    obtain ⟨rfl, hn, u, hu, hrun⟩ := h
    obtain ⟨hacc, -⟩ := hs
    have hsum := sum_capped_nonneg (timedRun_deltas_nonneg hrun)
    exact (step_timePassed hacc hn hu).trans (ih (stepLeavesAccBelowOneTick s u hacc hu) hrun) hsum

/-- From an ACC of 0 the ticks are the whole ticks of the seconds that passed. -/
theorem TimePassed.spentOn (h : TimePassed s t d) (hacc : s.acc = 0) : SpentOn s t d := by
  obtain ⟨hdt, hst, hacc'⟩ := h
  rw [hacc, zero_add, mul_comm] at hdt hst hacc'
  exact ⟨hdt, hst, hacc'⟩

/-- Settles O52: time adds up over the stages and over the steps. -/
theorem ticksDependOnTheSumOfTheDeltasOnly : Obligations.TicksDependOnTheSumOfTheDeltasOnly := by
  intro s deltas hacc
  have hs : AccBounds s := by
    rw [AccBounds, hacc]
    norm_num
  exact ⟨fun hd => (timePassed_foldl_passTime hs hd).spentOn hacc, fun t h => (timedRun_timePassed hs h).spentOn hacc⟩

end Sys2Proof.Machine
end

section
/-! PROOFS. Family 60_exceptions.md, part 5: a failing adapter (R306), the fault codes (R281) and the ports (R49 to R51). -/

namespace Sys2Proof.Machine

/-- Settles O59: the construction tests its adapters before anything else. -/
theorem adapterFailureAbortsConstruction : Obligations.AdapterFailureAbortsConstruction := fun _ _ _ => rfl

/-- Row-major order: a bit number splits into its row and its column in one way (R49). -/
theorem FrameBuffer.frameBit_eq_pixel (fb : FrameBuffer) (r : Fin 32) (c : Fin 64) (k : Fin 2048)
    (h : k.val = r.val * 64 + c.val) : fb.frameBit k = fb.pixel r c := by
  have hr : k.val / 64 = r.val := by omega
  have hc : k.val % 64 = c.val := by omega
  simp only [FrameBuffer.frameBit, hr, hc]

/-- Settles O60: the codes are those of the table, and the two levels are read off ST and STATUS. -/
theorem portsCarryTheStatedCodes : Obligations.PortsCarryTheStatedCodes :=
  ⟨⟨rfl, rfl, rfl, rfl, rfl, rfl⟩, FrameBuffer.frameBit_eq_pixel, fun _ => ⟨decide_eq_true_iff, rfl⟩⟩

end Sys2Proof.Machine
end

section
/-! PROOFS. Family 70_reset_and_hazards.md: the state right after construction (R330 to R334). -/

namespace Sys2Proof.Machine

open Sys2Proof.Stated

variable {p : Params} {rom : List Byte} {a : Nat}

/-! ### Construction is one memory write at 0x200 (R332) -/

theorem State.construct_of_loadRom_ok {t : State} (h : (State.initial p).loadRom rom = .ok t) :
    State.construct p none rom = .ok t := by
  simp only [State.construct, h, Except.mapError]

theorem State.construct_of_loadRom_error {r : Raise} (h : (State.initial p).loadRom rom = .error r) :
    State.construct p none rom = .error (bootFault r) := by
  simp only [State.construct, h, Except.mapError]

/-- Settles O58: the load is one checked write, so the rule of a block write says what every byte is after it. -/
theorem constructionLoadsTheRomAt0x200 : Obligations.ConstructionLoadsTheRomAt0x200 := by
  refine fun p rom => ⟨fun hfits => ?_, fun hlong => ?_⟩
  · have hend : progBase + rom.length ≤ memSize := Nat.add_le_add_left hfits 0x200
    have hload := State.memWrite_ok (State.initial p) progBase rom hend
    exact ⟨_, State.construct_of_loadRom_ok hload, rfl, readByte_of_memWrite_inside hload,
      readByte_of_memWrite_outside hload⟩
  · have hend : memSize < progBase + rom.length := Nat.add_lt_add_left hlong 0x200
    exact State.construct_of_loadRom_error (State.memWrite_error (State.initial p) progBase rom hend)

/-! ### The reset values (R333, R334) -/

/-- Settles O56: the register values are read off the record, and V, KEYS and FB are one repeated value. -/
theorem resetStateHoldsTheStatedValues : Obligations.ResetStateHoldsTheStatedValues := by
  refine ⟨fun p => ?_, rfl, rfl, rfl⟩
  have hv : ∀ x, (State.initial p).getV x = 0 := fun x => Vector.getElem_replicate x.isLt
  have hkeys : ∀ k : Reg, (State.initial p).keys[k] = false := fun k => Vector.getElem_replicate k.isLt
  exact ⟨hv, rfl, rfl, rfl, rfl, FrameBuffer.pixel_cleared, hkeys, rfl, rfl, rfl, rfl, rfl⟩

/-! ### The font and the zeros after it (R66, R331) -/

theorem resetByte_of_lt (font : FontTable) (h : a < fontSize) : resetByte font a = font[a] :=
  dif_pos ⟨Nat.zero_le a, h⟩

theorem resetByte_of_ge (font : FontTable) (h : fontSize ≤ a) : resetByte font a = 0 :=
  dif_neg fun hin => Nat.not_lt_of_le h hin.2

/-- Settles O57: no cell is listed at reset, so every address reads its construction value. -/
theorem resetMemoryHoldsTheFontThenZeros : Obligations.ResetMemoryHoldsTheFontThenZeros :=
  ⟨fun p _ h => resetByte_of_lt p.fontTable h, fun p _ h => resetByte_of_ge p.fontTable h, by decide⟩

/-! ### The invariants hold at the start -/

theorem State.initial_flowBounds (p : Params) : FlowBounds (State.initial p) := by
  have hpc : (BitVec.ofNat 16 progBase).toNat ≤ 0x10FE := by decide
  exact ⟨hpc, Nat.zero_le _, List.forall_mem_nil _⟩

theorem State.initial_accBounds (p : Params) : AccBounds (State.initial p) :=
  ⟨le_rfl, by norm_num [State.initial]⟩

/-- Settles O19: the ROM load writes memory alone, and a block write inside the array keeps it canonical. -/
theorem resetMeetsTheInvariants : Obligations.ResetMeetsTheInvariants := by
  refine fun p => ⟨⟨Memory.wf_nil, State.initial_flowBounds p, State.initial_accBounds p⟩, fun failed rom s h => ?_⟩
  obtain ⟨-, hend, rfl⟩ := State.construct_eq_ok p failed rom s h
  exact ⟨Memory.wf_setBytes rom [] progBase Memory.wf_nil hend, State.initial_flowBounds p, State.initial_accBounds p⟩

end Sys2Proof.Machine
end
